-- ==== Sys2Proof/Word.lean ====
section
/-! DEFINITION. The two word sizes of the block (spec/00_scope.md R8): every value is unsigned,
bit 0 is the least significant bit. -/

namespace Sys2Proof

/-- The spec's `u8`, a byte (R8). -/
abbrev Byte := BitVec 8

/-- The spec's `u16` (R8): counters, the length field and both checksums. -/
abbrev Half := BitVec 16

end Sys2Proof
end

