-- ==== Sys2Proof/Config.lean ====
section
/-! DEFINITION. The constants the source fixes (spec/00_scope.md R5) and the parameters it leaves to
the implementation (R6). A parameter record is carried by the state and no operation writes it (R236),
so every statement over all states is a statement over all parameter values. -/

namespace Sys2Proof

/-- R5 `MAGIC`: the magic byte. -/
def magic : Byte := 0x7E#8

/-- R5 `MAGIC_LEN`: magic bytes per frame. -/
abbrev magicLen : Nat := 4

/-- R5 `HDR_LEN`: header bytes of a frame. -/
abbrev hdrLen : Nat := 10

/-- R5 `CRC_LEN`: bytes of each checksum field. -/
abbrev crcLen : Nat := 2

/-- R5 `HDR_SEED`: initial value of the header sum. -/
abbrev hdrSeed : Nat := 0xFCFC

/-- R5 `HB_SIZE`: size of `header_buf`. -/
abbrev hbSize : Nat := 10

/-- R6: the implementation parameters. -/
structure Config where
  /-- `PAYLOAD_CAP`: bytes of the payload buffer. -/
  payloadCap : Nat
  /-- `MAX_PAYLOAD_LEN`: largest accepted value of the length field. -/
  maxPayloadLen : Nat
  /-- `MEMDUMP_SUBTYPE_0`. -/
  memdump0 : Byte
  /-- `MEMDUMP_SUBTYPE_1` (may equal the other one, D8). -/
  memdump1 : Byte
  /-- `ACC_W`: accumulator width of the checksum unit. -/
  accW : Nat
  /-- `LEN_W`: width of `dest_capacity` and `encoded_len`. -/
  lenW : Nat
  deriving DecidableEq, Repr

/-- R6: the constraints on the parameters. -/
abbrev Config.wf (c : Config) : Prop :=
  3 ≤ c.payloadCap ∧ c.payloadCap ≤ 65535 ∧ 1 ≤ c.maxPayloadLen ∧
  c.maxPayloadLen + 2 ≤ c.payloadCap ∧ c.maxPayloadLen ≤ 65533 ∧ 32 ≤ c.accW ∧ 17 ≤ c.lenW

/-- The value of `MEMDUMP_SUBTYPE_0` of the machine at hand: OPEN in the spec (R6, D8, U1), so no value
is known here (notes/assumptions/2.md). -/
opaque Config.openMemdump0 : Byte

/-- The value of `MEMDUMP_SUBTYPE_1` of the machine at hand, open likewise. -/
opaque Config.openMemdump1 : Byte

/-- R6: the stated defaults, with the two open subtype values. -/
def Config.standard : Config where
  payloadCap := 2036
  maxPayloadLen := 2034
  memdump0 := Config.openMemdump0
  memdump1 := Config.openMemdump1
  accW := 32
  lenW := 17

end Sys2Proof
end

