-- ==== Sys2Proof/Machine/Operands.lean ====
section
/-! DEFINITION. Operand forms: assembly of a 16-bit field from bytes and back (spec/00_scope.md R10,
spec/20_memory.md R56), the bytes of the two wire formats (spec/30_encoding.md R81, R83, R85, R86), and
reading an operand buffer (spec/20_memory.md R54). -/

namespace Sys2Proof.Machine

/-- R8: `zext_N(v)`, the only widening the block uses. -/
def zext {m : Nat} (n : Nat) (v : BitVec m) : BitVec n := v.setWidth n

/-- R8: `sext_N(v)`, which the spec defines for completeness and never uses. -/
def sext {m : Nat} (n : Nat) (v : BitVec m) : BitVec n := v.signExtend n

/-- R10: `be16(a, b) = (a << 8) | b`. -/
def be16 (a b : Byte) : Half := zext 16 a <<< 8 ||| zext 16 b

/-- R10: `hi8(v) = v[15:8]`. -/
def hi8 (v : Half) : Byte := v.extractLsb' 8 8

/-- R10: `lo8(v) = v[7:0]`. -/
def lo8 (v : Half) : Byte := v.extractLsb' 0 8

/-- A counter value stored in a u16 field (R24, R26). -/
def u16 (n : Nat) : Half := BitVec.ofNat 16 n

/-- The bytes of a 16-bit field in wire order, high byte first (R56, R86). -/
def fieldBytes (v : Half) : List Byte := [hi8 v, lo8 v]

/-- R81: the ten header bytes in wire order. -/
def headerBytes (type subtype : Byte) (length headerCrc : Half) : List Byte :=
  [magic, magic, magic, magic, type, subtype] ++ fieldBytes length ++ fieldBytes headerCrc

/-- R83: the bytes of a frame with a payload. -/
def payloadFrameBytes (type subtype : Byte) (length headerCrc : Half) (payload : List Byte)
    (payloadCrc : Half) : List Byte :=
  headerBytes type subtype length headerCrc ++ payload ++ fieldBytes payloadCrc

/-- Byte `i` of a byte sequence (R9); 0 past its end, where no rule reads. -/
def byteAt (bs : List Byte) (i : Nat) : Byte := bs.getD i 0

/-- The `n` bytes at indices 0 to `n - 1` of an operand buffer given by its listed bytes (R54). A byte
the caller did not list reads as 0 (notes/assumptions/6.md). -/
def operandBytes : Nat → List Byte → List Byte
  | 0, _ => []
  | n + 1, [] => 0 :: operandBytes n []
  | n + 1, b :: bs => b :: operandBytes n bs

end Sys2Proof.Machine
end

