-- ==== Sys2Proof/Machine/OnesComplement.lean ====
section
/-! DEFINITION. The checksum unit as pure functions (spec/40_checksum.md R110 to R113). The accumulator
is a natural number, so no addition wraps (R118, R119). -/

namespace Sys2Proof.Machine

/-- R110. -/
def fold16 (s : Nat) : Nat := (s &&& 0xFFFF) + (s >>> 16)

/-- R111. -/
def not16 (v : Nat) : Half := ~~~ u16 v

/-- The end of both checksums: fold twice, unconditionally (R120, C5), then complement. -/
def finishSum (s : Nat) : Half := not16 (fold16 (fold16 s))

/-- R112: the unfolded header sum. -/
def headerSum (type subtype : Byte) (length : Half) : Nat :=
  hdrSeed + (be16 type subtype).toNat + length.toNat

/-- R113: the unfolded payload sum; the last byte of an odd-length payload is a high byte whose low byte is
zero (R60, R87). -/
def payloadSum : List Byte → Nat
  | [] => 0
  | [a] => (be16 a 0).toNat
  | a :: b :: rest => (be16 a b).toNat + payloadSum rest

/-- R112: `CSUM.HDR type, subtype, length`. -/
def headerChecksum (type subtype : Byte) (length : Half) : Half :=
  finishSum (headerSum type subtype length)

/-- R113: `CSUM.PAY p`. -/
def payloadChecksum (p : List Byte) : Half := finishSum (payloadSum p)

end Sys2Proof.Machine
end

