-- ==== Sys2Proof/Syntax.lean ====
section
/-! DEFINITION. The operations of the block (spec/00_scope.md R12), one constructor per row of
spec/opcode_table.json, and what the outside world can present to the block in one transaction
(spec/30_encoding.md R88, R89; spec/41_decoder.md R144). -/

namespace Sys2Proof

/-- The operation set of R12. -/
inductive Instr where
  /-- `RX.RESET` (R145). -/
  | rxReset
  /-- `RX.BYTE b` (R130). -/
  | rxByte (rxData : Byte)
  /-- `TX.ENCODE` (R182). `txpl` lists the bytes of the caller's payload buffer from index 0. -/
  | txEncode (cmdValid : Bool) (type subtype : Byte) (length : Half) (txpl : List Byte)
      (destCapacity : Nat)
  /-- `CSUM.HDR type, subtype, length` (R112). -/
  | csumHdr (type subtype : Byte) (length : Half)
  /-- `CSUM.PAY p` (R113). -/
  | csumPay (p : List Byte)
  /-- `FRAME.H` (R82): the fields of the 80-bit header word that its mask leaves free. -/
  | frameH (type subtype : Byte) (headerCrc : Half)
  /-- `FRAME.HP` (R83): the header word's free fields, the payload and the payload checksum. -/
  | frameHP (type subtype : Byte) (length headerCrc : Half) (payload : List Byte)
      (payloadCrc : Half)
  /-- `RX.PARSE bytes` (R144), pseudo-operation. -/
  | rxParse (bytes : List Byte)
  /-- `HDRCHK` (R133), internal. -/
  | hdrchk
  /-- `PAYCHK` (R135), internal. -/
  | paychk
  /-- `DISPATCH` (R140), internal. -/
  | dispatch
  /-- `RESET_INT` (R142), internal. -/
  | resetInt
  /-- `RESYNC` (R160 to R165), internal. -/
  | resync
  /-- `PAYRESCAN(c, r)` (R166), internal. -/
  | payrescan (computed received : Half)
  /-- `TX.FILLHDR type, subtype, length` (R181), internal. -/
  | txFillhdr (type subtype : Byte) (length : Half)
  deriving DecidableEq, Repr

/-- R12: the internal micro-operations, which have no selector of their own. -/
def Instr.isInternal : Instr → Bool
  | .hdrchk | .paychk | .dispatch | .resetInt | .resync | .payrescan .. | .txFillhdr .. => true
  | .rxReset | .rxByte .. | .txEncode .. | .csumHdr .. | .csumPay .. | .frameH .. | .frameHP ..
  | .rxParse .. => false

/-- What stands on the input ports in one transaction (R88): the request word and every operand. -/
structure PortSample where
  /-- R89: `rq[4:0] = {cs_mode, cs_req, tx_start, rx_valid, soft_reset}`. -/
  rq : BitVec 5
  /-- Port `rx`: `rx_data[7:0]`. -/
  rxData : Byte
  /-- Port `tx`: `cmd_valid`. -/
  cmdValid : Bool
  /-- Port `tx`: `type[7:0]`. -/
  txType : Byte
  /-- Port `tx`: `subtype[7:0]`. -/
  txSubtype : Byte
  /-- Port `tx`: `length[15:0]`. -/
  txLength : Half
  /-- Port `tx`: the bytes of `TXPL` from index 0. -/
  txpl : List Byte
  /-- Port `tx`: `dest_capacity` (a natural, D13). -/
  destCapacity : Nat
  /-- Port `cs`: `type`. -/
  csType : Byte
  /-- Port `cs`: `subtype`. -/
  csSubtype : Byte
  /-- Port `cs`: `length`. -/
  csLength : Half
  /-- Port `cs`: the byte sequence `p`; its length is `n`. -/
  csData : List Byte
  deriving DecidableEq, Repr

/-- All ports at rest: `rq = 0b00000` requests nothing (R89). -/
def PortSample.idle : PortSample where
  rq := 0
  rxData := 0
  cmdValid := false
  txType := 0
  txSubtype := 0
  txLength := 0
  txpl := []
  destCapacity := 0
  csType := 0
  csSubtype := 0
  csLength := 0
  csData := []

/-- What the outside world does in one transaction. -/
inductive Stimulus where
  /-- Port values (R88). -/
  | ports (p : PortSample)
  /-- One `parse` call with a chunk of the receive stream (R51, R144). -/
  | chunk (bytes : List Byte)
  /-- The bytes of one frame put on the wire by the peer, received whole (R13, R100). -/
  | frame (bytes : List Byte)
  deriving DecidableEq, Repr

end Sys2Proof
end

