-- ==== Sys2Proof/WellFormed.lean ====
section
/-! DEFINITION. Which operations the ports and the wire formats can carry (spec/30_encoding.md R80 to R89,
spec/93_implementation_defined.md U11), and which frames also carry the checksums that R81 and R83 ask for. -/

namespace Sys2Proof

/-- An operation has a form the ports or the wire admit: `TXPL` lists at least `length` bytes of a command that
is given (R180, R236), `CSUM.PAY` has at most 65535 bytes (R113, U11), a `FRAME.HP` has a length field that is
not 0 and counts its payload (R83). -/
def Instr.wf : Instr → Bool
  | .txEncode cmdValid _ _ length txpl _ => !cmdValid || length.toNat ≤ txpl.length
  | .csumPay p => p.length ≤ 65535
  | .frameHP _ _ length _ payload _ => length != 0 && payload.length == length.toNat
  | .rxReset | .rxByte .. | .csumHdr .. | .frameH .. | .rxParse .. | .hdrchk | .paychk | .dispatch
  | .resetInt | .resync | .payrescan .. | .txFillhdr .. => true

/-- A well-formed frame carries the checksums of R81 and R83. A frame without them is not refused when it
arrives: the decoder raises HDR_CRC (R93) or PAY_CRC (R204). -/
def Instr.checksumsOk : Instr → Bool
  | .frameH type subtype headerCrc => headerCrc == Machine.headerChecksum type subtype 0
  | .frameHP type subtype length headerCrc payload payloadCrc =>
    headerCrc == Machine.headerChecksum type subtype length &&
      payloadCrc == Machine.payloadChecksum payload
  | .rxReset | .rxByte .. | .txEncode .. | .csumHdr .. | .csumPay .. | .rxParse .. | .hdrchk | .paychk
  | .dispatch | .resetInt | .resync | .payrescan .. | .txFillhdr .. => true

/-- What the ports may carry in one transaction: the same bounds, on the operands requested or not. -/
def PortSample.wf (p : PortSample) : Bool := p.csData.length ≤ 65535

/-- A stimulus the outside world can present. -/
def Stimulus.wf : Stimulus → Bool
  | .ports p => p.wf
  | .chunk _ | .frame _ => true

end Sys2Proof
end

