-- ==== Sys2Proof/Decode.lean ====
section
/-! DEFINITION. From port values and wire bytes to operations (spec/30_encoding.md R80 to R90, R96, R97),
total on every input, and the encoder back. -/

namespace Sys2Proof

open Machine (be16 byteAt headerBytes payloadFrameBytes)

/-- Why bytes are no frame of R80. -/
inductive DecodeError where
  /-- Fewer than the ten header bytes (R81). -/
  | shortHeader
  /-- The first four bytes are not the magic number (R81). -/
  | noMagic
  /-- The number of bytes is not what the length field says (R97). -/
  | wrongTotal
  deriving DecidableEq, Repr

/-- R89: a request word matches a row's pattern. -/
def requests (pattern mask rq : BitVec 5) : Bool := rq &&& mask == pattern

/-- R89: the operations one request word selects. It is not exclusive across ports: each requesting port
gets its operation, and `soft_reset` keeps `rx` from taking a byte (R96). -/
def decodePorts (p : PortSample) : List Instr :=
  (if requests 0b00001 0b00001 p.rq then [.rxReset] else []) ++
  (if requests 0b00010 0b00011 p.rq then [.rxByte p.rxData] else []) ++
  (if requests 0b00100 0b00100 p.rq then
    [.txEncode p.cmdValid p.txType p.txSubtype p.txLength p.txpl p.destCapacity] else []) ++
  (if requests 0b01000 0b11000 p.rq then [.csumHdr p.csType p.csSubtype p.csLength] else []) ++
  (if requests 0b11000 0b11000 p.rq then [.csumPay p.csData] else [])

/-- R96: `rx_ready`, false while `soft_reset` is asserted. -/
def rxReady (rq : BitVec 5) : Bool := !rq.getLsbD 0

/-- R90, R97: the frame that a byte sequence is, told by its length field alone. -/
def decodeFrame (bs : List Byte) : Except DecodeError Instr :=
  let length := be16 (byteAt bs 6) (byteAt bs 7)
  let headerCrc := be16 (byteAt bs 8) (byteAt bs 9)
  if bs.length < 10 then .error .shortHeader
  else if bs.take 4 ≠ [magic, magic, magic, magic] then .error .noMagic
  else if length = 0 then
    if bs.length = 10 then .ok (.frameH (byteAt bs 4) (byteAt bs 5) headerCrc) else .error .wrongTotal
  else if bs.length = 12 + length.toNat then
    .ok (.frameHP (byteAt bs 4) (byteAt bs 5) length headerCrc ((bs.drop 10).take length.toNat)
      (be16 (byteAt bs (10 + length.toNat)) (byteAt bs (11 + length.toNat))))
  else .error .wrongTotal

/-- The operations one transaction asks for. Wire bytes that are no frame are received as bytes (R91 to
R93). -/
def decode : Stimulus → List Instr
  | .ports p => decodePorts p
  | .chunk bs => [.rxParse bs]
  | .frame bs =>
    match decodeFrame bs with
    | .ok i => [i]
    | .error _ => [.rxParse bs]

/-- R81: the header word `H` as ten bytes, wire offset 0 in `H[79:72]`. -/
def headerWordBytes (h : BitVec 80) : List Byte :=
  [h.extractLsb' 72 8, h.extractLsb' 64 8, h.extractLsb' 56 8, h.extractLsb' 48 8, h.extractLsb' 40 8,
   h.extractLsb' 32 8, h.extractLsb' 24 8, h.extractLsb' 16 8, h.extractLsb' 8 8, h.extractLsb' 0 8]

/-- The bytes of the frame whose header word is `h` and whose other bytes, if its length field asks for
any, are 0. -/
def zeroFrame (h : BitVec 80) : List Byte :=
  let hdr := headerWordBytes h
  let length := be16 (byteAt hdr 6) (byteAt hdr 7)
  if length = 0 then hdr else hdr ++ List.replicate (length.toNat + 2) 0

/-- A word of spec/opcode_table.json as a stimulus: 80 bits are a header word `H`, up to 32 bits a request
word `rq[4:0]` with every operand 0. -/
def tableStimulus (nbits w : Nat) : Option Stimulus :=
  if nbits = 80 then some (.frame (zeroFrame (BitVec.ofNat 80 w)))
  else if nbits ≤ 32 then some (.ports { PortSample.idle with rq := BitVec.ofNat 5 w })
  else none

/-- The operation read from a word of spec/opcode_table.json: of a request word that selects several, the
first of R89's order. -/
def decodeTableWord (nbits w : Nat) : Option Instr :=
  match tableStimulus nbits w with
  | some (.frame bs) =>
    match decodeFrame bs with
    | .ok i => some i
    | .error _ => none
  | some x => (decode x).head?
  | none => none

/-- The stimulus that asks for an operation: the request word and operands of R89, or the wire bytes of R81
and R83. The internal micro-operations have no selector (R12). -/
def encode : Instr → Option Stimulus
  | .rxReset => some (.ports { PortSample.idle with rq := 0b00001 })
  | .rxByte b => some (.ports { PortSample.idle with rq := 0b00010, rxData := b })
  | .txEncode cmdValid type subtype length txpl destCapacity =>
    some (.ports { PortSample.idle with
      rq := 0b00100, cmdValid := cmdValid, txType := type, txSubtype := subtype, txLength := length,
      txpl := txpl, destCapacity := destCapacity })
  | .csumHdr type subtype length =>
    some (.ports { PortSample.idle with
      rq := 0b01000, csType := type, csSubtype := subtype, csLength := length })
  | .csumPay p => some (.ports { PortSample.idle with rq := 0b11000, csData := p })
  | .frameH type subtype headerCrc => some (.frame (headerBytes type subtype 0 headerCrc))
  | .frameHP type subtype length headerCrc payload payloadCrc =>
    some (.frame (payloadFrameBytes type subtype length headerCrc payload payloadCrc))
  | .rxParse bs => some (.chunk bs)
  | .hdrchk | .paychk | .dispatch | .resetInt | .resync | .payrescan .. | .txFillhdr .. => none

end Sys2Proof
end

