-- ==== Sys2Proof/Machine/State.lean ====
section
/-! DEFINITION. The state of one channel (spec/10_state.md R22 to R38), the outputs its transactions have
produced (spec/60_exceptions.md R207, spec/30_encoding.md R88), the destination buffer of the encoder's caller
(spec/20_memory.md R54), and what the outside world will present next. -/

namespace Sys2Proof.Machine

/-- R22: the three decoder states. -/
inductive RxState where
  | searchFlag
  | collectHeader
  | collectData
  deriving DecidableEq, Repr

/-- R207: the events of the output trace (ports `disp` and `ev`). -/
inductive Event where
  /-- `DISPATCH(type, subtype, length, payload)` (R140). -/
  | dispatch (type subtype : Byte) (length : Half) (payload : List Byte)
  /-- `EV_HDR_CRC(computed, received)` (R202). -/
  | hdrCrc (computed received : Half)
  /-- `EV_LEN(length)` (R203). -/
  | len (length : Half)
  /-- `EV_PAY_CRC(computed, received, keep_from)` (R204). -/
  | payCrc (computed received : Half) (keepFrom : Nat)
  deriving DecidableEq, Repr

/-- R180: the encoder's result on port `txo`. -/
inductive EncResult where
  /-- `Ok(encoded_len)`. -/
  | ok (encodedLen : Nat)
  /-- `InvalidArgument` (R206). -/
  | invalidArgument
  deriving DecidableEq, Repr

/-- A byte-indexed buffer space (R50): its cells that do not read as 0, by rising index. -/
abbrev Memory := List Host.Cell

/-- The state of the block and its surroundings. -/
structure State where
  /-- R6, R236: the parameters of the instance, which no operation writes. -/
  cfg : Config
  /-- R22 `S.state`. -/
  state : RxState
  /-- R23 `S.header_buf`, the space `HB`: 10 bytes. -/
  headerBuf : Memory
  /-- R24 `S.header_filled`; in SearchFlag the magic-run count (R31). -/
  headerFilled : Half
  /-- R25 `S.target_len`. -/
  targetLen : Half
  /-- R26 `S.received_len`. -/
  receivedLen : Half
  /-- R27 `S.command.type`. -/
  cmdType : Byte
  /-- R28 `S.command.subtype`. -/
  cmdSubtype : Byte
  /-- R29 `S.command.length`. -/
  cmdLength : Half
  /-- R30 `S.command.payload`, the space `PL`: `PAYLOAD_CAP` bytes. -/
  payload : Memory
  /-- R32, R130: the work queue with the replayed bytes, empty between transactions. -/
  queue : List Byte
  /-- R54: the space `DEST` of the encoder's caller. -/
  dest : Memory
  /-- R207: the events emitted so far on `disp` and `ev`, oldest first. -/
  trace : List Event
  /-- R88: the results given so far on `txo`, oldest first. -/
  txo : List EncResult
  /-- R88: the checksums given so far on `cs`, oldest first. -/
  csum : List Half
  /-- What the outside world presents next, one entry a transaction. -/
  inputs : List Stimulus
  deriving DecidableEq, Repr

/-- Why the machine stops with a fault. The spec gives the block no fault (R200, R149): each of these stands
for an access or a run that the spec proves impossible, and none arises from a state that satisfies R35. -/
inductive Fault where
  /-- `RX.BYTE` in CollectHeader with `header_filled` of 10 or more: the index is outside `header_buf` (R52, R35
  INV6). Raised by the CollectHeader arm (R132). Safe: only in states no run reaches. -/
  | headerIndex (index : Nat)
  /-- An index of `PAYLOAD_CAP` or more: outside the payload buffer (R53, R35 INV6). Raised by the CollectData
  arm (R134), `PAYCHK`, `DISPATCH` and `PAYRESCAN`. Safe: only in states no run reaches. -/
  | payloadIndex (index : Nat)
  /-- The loop of R130 ran longer than R168 allows. Raised by `RX.BYTE`. Safe: it never arises. -/
  | loopBound
  deriving DecidableEq, Repr

/-- Why the model gives an operation no meaning. -/
inductive Refusal where
  /-- An operation not modelled yet: raised by `exec`'s arm of that operation alone. Safe. -/
  | notModelled (mnemonic : String)
  /-- `CSUM.PAY` on more than 65535 bytes, which the `cs` port does not admit (R113, U11). Raised by `CSUM.PAY`.
  Safe. -/
  | csumPayTooLong (n : Nat)
  deriving DecidableEq, Repr

/-- R38, R230: the state `S0` that hardware reset creates. The contents of the two buffers are
unspecified and unobservable (R36, U5) and are taken as zero; the trace is empty (R231). -/
def State.reset : State where
  cfg := Config.standard
  state := .searchFlag
  headerBuf := []
  headerFilled := 0
  targetLen := 0
  receivedLen := 0
  cmdType := 0
  cmdSubtype := 0
  cmdLength := 0
  payload := []
  queue := []
  dest := []
  trace := []
  txo := []
  csum := []
  inputs := []

end Sys2Proof.Machine
end

