-- ==== Sys2Proof/Machine/Ops.lean ====
section
/-! DEFINITION. Named operations over the buffer spaces and the decoder state: byte access (spec/00_scope.md
R10), the reset state (spec/41_decoder.md R142), and raising a condition, which in this block is the whole of
taking an exception (spec/60_exceptions.md R207, R212): the event is appended to the trace and the recovery of
the condition's rule follows in the same transaction. Nothing is saved and no mode changes, so there is no
return (R214). -/

namespace Sys2Proof.Machine

/-- What an operation answers. -/
abbrev Result := Host.Outcome State Fault Refusal

/-- Goes on with the next state, or stops as the first operation stopped. -/
def andThen (r : Result) (f : State → Result) : Result :=
  match r with
  | .next s => f s
  | .fault e => .fault e
  | .refused e => .refused e

/-! ### Buffer spaces -/

/-- What an index that no cell lists reads as (notes/assumptions/3.md). -/
def Memory.unlisted : Byte := 0

/-- Every key is at least `lo`, keys rise strictly, and no cell holds what an unlisted index reads as. -/
def Memory.wfFrom (lo : Nat) : Memory → Bool
  | [] => true
  | (k, v) :: t => decide (lo ≤ k) && v != Memory.unlisted && Memory.wfFrom (k + 1) t

/-- The canonical form of a buffer's contents. -/
def Memory.wf (m : Memory) : Bool := Memory.wfFrom 0 m

/-- Every listed index is below `n`. -/
def Memory.below (n : Nat) (m : Memory) : Bool := m.all fun c => c.1 < n

/-- R10 `MemRead(space, i, 1)`. -/
def Memory.read : Memory → Nat → Byte
  | [], _ => Memory.unlisted
  | (k, v) :: t, i => if k = i then v else Memory.read t i

/-- R10 `MemWrite(space, i, 1, v)`. -/
def Memory.write : Memory → Nat → Byte → Memory
  | [], i, v => if v = Memory.unlisted then [] else [(i, v)]
  | (k, w) :: t, i, v =>
    if i < k then (if v = Memory.unlisted then (k, w) :: t else (i, v) :: (k, w) :: t)
    else if i = k then (if v = Memory.unlisted then t else (i, v) :: t)
    else (k, w) :: Memory.write t i v

/-- The `n` bytes at indices `i` to `i + n - 1`, ascending. -/
def Memory.readBytes (m : Memory) (i : Nat) : Nat → List Byte
  | 0 => []
  | n + 1 => m.read i :: Memory.readBytes m (i + 1) n

/-- Writes bytes from index `i` on, one at a time, ascending (R62, R183). -/
def Memory.writeBytes (m : Memory) (i : Nat) : List Byte → Memory
  | [] => m
  | b :: bs => Memory.writeBytes (m.write i b) (i + 1) bs

/-- R162: `for j ascending: m[dst + j] <- m[src + j]`, `n` bytes. -/
def Memory.copyDown (m : Memory) (src dst : Nat) : Nat → Memory
  | 0 => m
  | n + 1 => Memory.copyDown (m.write dst (m.read src)) (src + 1) (dst + 1) n

/-! ### Output ports -/

/-- R10 `emit(e)`. -/
def emit (e : Event) (s : State) : State := { s with trace := s.trace ++ [e] }

/-- The encoder's result on port `txo`. -/
def answerTx (r : EncResult) (s : State) : State := { s with txo := s.txo ++ [r] }

/-- A checksum on port `cs`. -/
def answerCs (v : Half) (s : State) : State := { s with csum := s.csum ++ [v] }

/-- R10, R212 `raise <Condition>(info)`: the event, then the condition's recovery. -/
def raiseCondition (e : Event) (recovery : State → State) (s : State) : State :=
  recovery (emit e s)

/-! ### Decoder state -/

/-- What every `RESYNC` outcome and every reset clears (R160, R142). -/
def clearFrame (s : State) : State :=
  { s with targetLen := 0, receivedLen := 0, cmdType := 0, cmdSubtype := 0, cmdLength := 0 }

/-- Enters a decoder state with a value of `header_filled`. -/
def enter (st : RxState) (filled : Nat) (s : State) : State :=
  { s with state := st, headerFilled := u16 filled }

/-- R142, R38: back to `S0`, buffers left as they are. -/
def resetParser (s : State) : State := enter .searchFlag 0 (clearFrame s)

/-- R130: the bytes still to be consumed in this transaction. -/
def setQueue (q : List Byte) (s : State) : State := { s with queue := q }

/-- Byte `i` of `header_buf` (R10 `hb[i]`). -/
def hb (s : State) (i : Nat) : Byte := s.headerBuf.read i

/-- Bytes 0 to `n - 1` of the payload buffer. -/
def pl (s : State) (n : Nat) : List Byte := s.payload.readBytes 0 n

/-- Byte accesses to the payload buffer below index `n` exist (R53); the first one past its end faults. -/
def withPayload (n : Nat) (s : State) (r : Result) : Result :=
  if n ≤ s.cfg.payloadCap then r else .fault (.payloadIndex s.cfg.payloadCap)

/-! ### Numeric codes (R101) -/

/-- R101: the 2-bit state code, 3 unused. -/
def stateCode : RxState → BitVec 2
  | .searchFlag => 0
  | .collectHeader => 1
  | .collectData => 2

/-- R101: event codes. -/
def eventCode : Event → Nat
  | .dispatch .. => 0
  | .hdrCrc .. => 1
  | .len .. => 2
  | .payCrc .. => 3

/-- R101: result codes. -/
def resultCode : EncResult → Nat
  | .ok _ => 0
  | .invalidArgument => 1

/-! ### Input -/

/-- The next transaction's stimulus and the state that has taken it; none when nothing is requested
(R234). -/
def takeInput (s : State) : Option (Stimulus × State) :=
  match s.inputs with
  | [] => none
  | x :: rest => some (x, { s with inputs := rest })

/-- The state in which `x` is what the next transaction takes. -/
def offerInput (x : Stimulus) (s : State) : State := { s with inputs := x :: s.inputs }

end Sys2Proof.Machine
end

