-- ==== Sys2Proof/Machine/Checksum.lean ====
section
/-! DEFINITION. The checksum unit at its port (spec/40_checksum.md R112, R113). It writes no decoder state. -/

namespace Sys2Proof.Machine

/-- `CSUM.HDR` (R112). -/
def execCsumHdr (type subtype : Byte) (length : Half) (s : State) : Result :=
  .next (answerCs (headerChecksum type subtype length) s)

/-- `CSUM.PAY` (R113). More than 65535 bytes are not admitted at the port (U11). -/
def execCsumPay (p : List Byte) (s : State) : Result :=
  if p.length ≤ 65535 then .next (answerCs (payloadChecksum p) s)
  else .refused (.csumPayTooLong p.length)

end Sys2Proof.Machine
end

