-- ==== Sys2Proof/Machine/Flags.lean ====
section
/-! DEFINITION. The block stores no flag (spec/10_state.md R33). Its conditions are Booleans made and used
in one transaction: the two checksum comparisons (spec/40_checksum.md R114, R115), the length test
(spec/30_encoding.md R94), the memdump test (spec/41_decoder.md R135) and the encoder's tests
(spec/43_encoder.md R182). -/

namespace Sys2Proof.Machine

/-- R133: the length field of the header window. -/
def windowLength (s : State) : Half := be16 (hb s 6) (hb s 7)

/-- R133: the received header checksum of the window. -/
def windowReceived (s : State) : Half := be16 (hb s 8) (hb s 9)

/-- R133: the computed header checksum of the window. -/
def windowComputed (s : State) : Half := headerChecksum (hb s 4) (hb s 5) (windowLength s)

/-- R114: exact equality of two 16-bit values (D25). -/
def hdrOk (s : State) : Bool := windowComputed s == windowReceived s

/-- R135: the received payload checksum, behind the payload in the same buffer (R30). -/
def payloadReceived (s : State) : Half :=
  be16 (s.payload.read s.targetLen.toNat) (s.payload.read (s.targetLen.toNat + 1))

/-- R135: the computed payload checksum. -/
def payloadComputed (s : State) : Half := payloadChecksum (pl s s.targetLen.toNat)

/-- R115: exact equality of two 16-bit values. -/
def payOk (s : State) : Bool := payloadComputed s == payloadReceived s

/-- R94: the length field is accepted; the boundary value is (D7). -/
def lengthAccepted (c : Config) (length : Half) : Bool := length.toNat ≤ c.maxPayloadLen

/-- R95, R135: the command's subtype is one of the two memdump subtypes. -/
def isMemdump (s : State) : Bool := s.cmdSubtype == s.cfg.memdump0 || s.cmdSubtype == s.cfg.memdump1

/-- R182: all four tests of the encoder pass. -/
def encodeAccepted (c : Config) (cmdValid : Bool) (length : Half) (destCapacity : Nat) : Bool :=
  cmdValid && !(destCapacity ≤ hdrLen) && lengthAccepted c length &&
    !(length != 0 && destCapacity < hdrLen + crcLen + length.toNat)

end Sys2Proof.Machine
end

