-- ==== Sys2Proof/Machine/Resync.lean ====
section
/-! DEFINITION. The resync engine on the header window and the rescan of a failed payload
(spec/42_resync.md). -/

namespace Sys2Proof.Machine

/-- R161: four magic bytes whose last one is at index `i`. -/
def runEndsAt (m : Memory) (i : Nat) : Bool :=
  m.read (i - 3) == magic && m.read (i - 2) == magic && m.read (i - 1) == magic && m.read i == magic

/-- R161: the scan from index 9 down to 4; the run nearest the end of the window wins. -/
def resyncScan (m : Memory) : Option Nat := [9, 8, 7, 6, 5, 4].find? (runEndsAt m)

/-- R164: `while hb[9 - t] = 0x7E: t <- t + 1`, for at most as many rounds as the window has bytes left. -/
def tailRun (m : Memory) : Nat → Nat → Nat
  | 0, t => t
  | rounds + 1, t => if m.read (9 - t) = magic then tailRun m rounds (t + 1) else t

/-- R162: outcome *shift* with the run ending at index `i`. -/
def resyncShift (i : Nat) (s : State) : State :=
  enter .collectHeader (13 - i)
    (clearFrame { s with headerBuf := s.headerBuf.copyDown (i - 3) 0 (13 - i) })

/-- R164: outcome *tail*. -/
def resyncTail (s : State) : State :=
  enter .searchFlag (tailRun s.headerBuf 9 1) (clearFrame s)

/-- R160 to R165: `RESYNC`. DEDUCED: these rules are followed also where the sentence of R169 that the next
frame is recovered for `FRAME.H` outright does not follow from them (notes/assumptions/21.md), and so for the
second case of R185 (notes/assumptions/9.md). -/
def resync (s : State) : State :=
  match resyncScan s.headerBuf with
  | some i => resyncShift i s
  | none => if hb s 9 = magic then resyncTail s else resetParser s

/-- R166: the lowest index of a magic byte, or the number of bytes when there is none. -/
def firstMagic : List Byte → Nat
  | [] => 0
  | b :: bs => if b = magic then 0 else firstMagic bs + 1

/-- R166: the reset, then the bytes from the first magic byte on in front of the queue. The bytes are a
copy, taken before the reset (R167). -/
def replayFrom (buffered : List Byte) (s : State) : State :=
  setQueue (buffered.drop (firstMagic buffered) ++ s.queue) (resetParser s)

/-- R166: the bytes held by a complete frame, payload and checksum. -/
def buffered (s : State) : List Byte := pl s (s.targetLen.toNat + 2)

/-- R166, R204: `PAYRESCAN(c, r)`. -/
def payrescan (computed received : Half) (s : State) : Result :=
  withPayload (s.targetLen.toNat + 2) s
    (.next (raiseCondition (.payCrc computed received (firstMagic (buffered s)))
      (replayFrom (buffered s)) s))

/-- `RESYNC`, alone. -/
def execResync (s : State) : Result := .next (resync s)

/-- `PAYRESCAN`, alone. -/
def execPayrescan (computed received : Half) (s : State) : Result := payrescan computed received s

end Sys2Proof.Machine
end

