-- ==== Sys2Proof/Machine/Decoder.lean ====
section
/-! DEFINITION. The frame decoder (spec/41_decoder.md). -/

namespace Sys2Proof.Machine

/-- R140: `DISPATCH`: the event carries a copy of the payload; no state changes. -/
def dispatchCommand (s : State) : Result :=
  withPayload s.cmdLength.toNat s
    (.next (emit (.dispatch s.cmdType s.cmdSubtype s.cmdLength (pl s s.cmdLength.toNat)) s))

/-- R133: the command fields taken from a valid header. -/
def takeCommand (s : State) : State :=
  { s with cmdType := hb s 4, cmdSubtype := hb s 5, cmdLength := windowLength s }

/-- R133: into CollectData; `header_filled` keeps its value (D15). -/
def enterData (s : State) : State :=
  { s with state := .collectData, targetLen := windowLength s, receivedLen := 0 }

/-- R133: `HDRCHK`. The checksum is tested first, the length second (R209). -/
def hdrchk (s : State) : Result :=
  if hdrOk s then
    if windowLength s = 0 then
      andThen (dispatchCommand (takeCommand s)) fun s1 => .next (resetParser s1)
    else if lengthAccepted s.cfg (windowLength s) then .next (enterData (takeCommand s))
    else .next (raiseCondition (.len (windowLength s)) resync (takeCommand s))
  else .next (raiseCondition (.hdrCrc (windowComputed s) (windowReceived s)) resync s)

/-- R135: `PAYCHK`. The checksum is tested first, the subtype second (R209). -/
def paychk (s : State) : Result :=
  withPayload (s.targetLen.toNat + 2) s
    (if payOk s then andThen (dispatchCommand s) fun s1 => .next (resetParser s1)
     else if isMemdump s then .next (resetParser s)
     else payrescan (payloadComputed s) (payloadReceived s) s)

/-- R131: one more magic byte of the run (R31). -/
def countMagic (s : State) : State := { s with headerFilled := u16 (s.headerFilled.toNat + 1) }

/-- R131: the fourth magic byte primes `header_buf` with the constant and opens a header. -/
def primeHeader (s : State) : State :=
  enter .collectHeader 4
    { s with headerBuf := s.headerBuf.writeBytes 0 [magic, magic, magic, magic] }

/-- R131: the SearchFlag arm. -/
def searchArm (c : Byte) (s : State) : State :=
  if c = magic then
    if s.headerFilled.toNat + 1 = 4 then primeHeader s else countMagic s
  else { s with headerFilled := 0 }

/-- R132: the byte stored in `header_buf`. -/
def storeHeader (c : Byte) (s : State) : State :=
  { s with headerBuf := s.headerBuf.write s.headerFilled.toNat c
           headerFilled := u16 (s.headerFilled.toNat + 1) }

/-- R132: the CollectHeader arm. -/
def headerArm (c : Byte) (s : State) : Result :=
  if s.headerFilled.toNat < hbSize then
    if s.headerFilled.toNat + 1 = hdrLen then hdrchk (storeHeader c s) else .next (storeHeader c s)
  else .fault (.headerIndex s.headerFilled.toNat)

/-- R134: the byte stored in the payload buffer. -/
def storePayload (c : Byte) (s : State) : State :=
  { s with payload := s.payload.write s.receivedLen.toNat c
           receivedLen := u16 (s.receivedLen.toNat + 1) }

/-- R134: the CollectData arm. -/
def dataArm (c : Byte) (s : State) : Result :=
  if s.receivedLen.toNat < s.cfg.payloadCap then
    if s.receivedLen.toNat + 1 = s.targetLen.toNat + crcLen then paychk (storePayload c s)
    else .next (storePayload c s)
  else .fault (.payloadIndex s.receivedLen.toNat)

/-- R130: the arm of the current decoder state consumes one byte. -/
def consume (c : Byte) (s : State) : Result :=
  match s.state with
  | .searchFlag => .next (searchArm c s)
  | .collectHeader => headerArm c s
  | .collectData => dataArm c s

/-- R130: the loop over the work queue, for at most `fuel` rounds. -/
def drain : Nat → State → Result
  | 0, s =>
    match s.queue with
    | [] => .next s
    | _ :: _ => .fault .loopBound
  | fuel + 1, s =>
    match s.queue with
    | [] => .next s
    | c :: rest => andThen (consume c (setQueue rest s)) (drain fuel)

/-- R168: the bytes the decoder holds for the current frame attempt. -/
def held (s : State) : Nat :=
  match s.state with
  | .searchFlag | .collectHeader => s.headerFilled.toNat
  | .collectData => 10 + s.receivedLen.toNat

/-- R168: `Φ = len(queue) + held`. -/
def potential (s : State) : Nat := s.queue.length + held s

/-- R168: the loop runs at most `(Φ0 + 1)^2` times. -/
def loopFuel (s : State) : Nat := (potential s + 1) ^ 2

/-- R130: `RX.BYTE b`. -/
def rxByte (b : Byte) (s : State) : Result :=
  drain (loopFuel (setQueue [b] s)) (setQueue [b] s)

/-- R144: `RX.PARSE`, the left fold of `RX.BYTE`. -/
def rxParse : List Byte → State → Result
  | [], s => .next s
  | b :: bs, s => andThen (rxByte b s) (rxParse bs)

/-- `RX.RESET` (R145): the reset, no event. -/
def execRxReset (s : State) : Result := .next (resetParser s)

/-- `RX.BYTE`. -/
def execRxByte (rxData : Byte) (s : State) : Result := rxByte rxData s

/-- `RX.PARSE`. -/
def execRxParse (bytes : List Byte) (s : State) : Result := rxParse bytes s

/-- A `FRAME.H` arrives: its ten bytes are received (R82, R99, R100). -/
def execFrameH (type subtype : Byte) (headerCrc : Half) (s : State) : Result :=
  rxParse (headerBytes type subtype 0 headerCrc) s

/-- A `FRAME.HP` arrives: its bytes are received (R83, R99, R100). -/
def execFrameHP (type subtype : Byte) (length headerCrc : Half) (payload : List Byte)
    (payloadCrc : Half) (s : State) : Result :=
  rxParse (payloadFrameBytes type subtype length headerCrc payload payloadCrc) s

/-- `HDRCHK`, alone. -/
def execHdrchk (s : State) : Result := hdrchk s

/-- `PAYCHK`, alone. -/
def execPaychk (s : State) : Result := paychk s

/-- `DISPATCH`, alone. -/
def execDispatch (s : State) : Result := dispatchCommand s

/-- `RESET_INT`, alone. -/
def execResetInt (s : State) : Result := .next (resetParser s)

end Sys2Proof.Machine
end

