-- ==== Sys2Proof/Machine/Encoder.lean ====
section
/-! DEFINITION. The frame encoder (spec/43_encoder.md). It reads nothing but its operands and the
parameters, and writes nothing but `DEST` and its result (R184). -/

namespace Sys2Proof.Machine

/-- R181: `TX.FILLHDR type, subtype, length`. -/
def fillHeader (type subtype : Byte) (length : Half) (s : State) : State :=
  let header := headerBytes type subtype length (headerChecksum type subtype length)
  { s with dest := s.dest.writeBytes 0 header }

/-- R182: the payload behind the header, then its checksum. -/
def fillPayload (length : Half) (txpl : List Byte) (s : State) : State :=
  let p := operandBytes length.toNat txpl
  { s with dest := s.dest.writeBytes hdrLen (p ++ fieldBytes (payloadChecksum p)) }

/-- `TX.ENCODE` (R182). All tests precede the first write (R183). -/
def execTxEncode (cmdValid : Bool) (type subtype : Byte) (length : Half) (txpl : List Byte)
    (destCapacity : Nat) (s : State) : Result :=
  if encodeAccepted s.cfg cmdValid length destCapacity then
    let s1 := fillHeader type subtype length s
    if length = 0 then .next (answerTx (.ok hdrLen) s1)
    else .next (answerTx (.ok (hdrLen + crcLen + length.toNat)) (fillPayload length txpl s1))
  else .next (answerTx .invalidArgument s)

/-- `TX.FILLHDR`, alone (R181). -/
def execTxFillhdr (type subtype : Byte) (length : Half) (s : State) : Result :=
  .next (fillHeader type subtype length s)

end Sys2Proof.Machine
end

