-- ==== Sys2Proof/Machine/Dispatch.lean ====
section
/-! DEFINITION. One arm per operation of spec/opcode_table.json. -/

namespace Sys2Proof.Machine

def exec (i : Instr) (s : State) : Host.Outcome State Fault Refusal :=
  match i with
  | .rxReset => Sys2Proof.Machine.execRxReset s
  | .rxByte b => Sys2Proof.Machine.execRxByte b s
  | .txEncode v t u n p c => Sys2Proof.Machine.execTxEncode v t u n p c s
  | .csumHdr t u n => Sys2Proof.Machine.execCsumHdr t u n s
  | .csumPay p => Sys2Proof.Machine.execCsumPay p s
  | .frameH t u h => Sys2Proof.Machine.execFrameH t u h s
  | .frameHP t u n h p c => Sys2Proof.Machine.execFrameHP t u n h p c s
  | .rxParse bs => Sys2Proof.Machine.execRxParse bs s
  | .hdrchk => Sys2Proof.Machine.execHdrchk s
  | .paychk => Sys2Proof.Machine.execPaychk s
  | .dispatch => Sys2Proof.Machine.execDispatch s
  | .resetInt => Sys2Proof.Machine.execResetInt s
  | .resync => Sys2Proof.Machine.execResync s
  | .payrescan c r => Sys2Proof.Machine.execPayrescan c r s
  | .txFillhdr t u n => Sys2Proof.Machine.execTxFillhdr t u n s

end Sys2Proof.Machine
end

