-- ==== Sys2Proof/Machine/Transaction.lean ====
section
/-! DEFINITION. One transaction: every operation the ports ask for (spec/30_encoding.md R89, R96), one after
the other in the order of R89's table, which is immaterial (spec/20_memory.md R68, spec/60_exceptions.md
R210). -/

namespace Sys2Proof.Machine

/-- Runs operations in order, stopping at the first fault or refusal. -/
def execAll : List Instr → State → Result
  | [], s => .next s
  | i :: is, s => andThen (exec i s) (execAll is)

/-- One transaction with stimulus `x`. -/
def transact (x : Stimulus) (s : State) : Result := execAll (decode x) s

/-- The next transaction; with nothing requested the block does nothing (R234, R89). -/
def runNext (s : State) : Result :=
  match takeInput s with
  | none => .next s
  | some (x, s1) => transact x s1

/-- The word `w` of spec/opcode_table.json presented as the next transaction; unchanged when no stimulus
carries such a word. -/
def offerTableWord (s : State) (nbits w : Nat) : State :=
  match tableStimulus nbits w with
  | some x => offerInput x s
  | none => s

end Sys2Proof.Machine
end

