-- ==== Sys2Proof/Safety.lean ====
section
/-! DEFINITION. What holds of every reachable state (spec/10_state.md R35), and when two states look the same
from outside (R36). -/

namespace Sys2Proof.Machine

/-- R35, while a byte is being consumed: everything but the empty work queue. -/
structure RxInv (s : State) : Prop where
  /-- R6: the parameters satisfy their constraints. -/
  cfg : s.cfg.wf
  /-- The buffer spaces are in canonical form. -/
  memory : s.headerBuf.wf = true ∧ s.payload.wf = true ∧ s.dest.wf = true
  /-- INV1. -/
  inv1 : s.headerFilled.toNat ≤ 10
  /-- INV2. -/
  inv2 : s.receivedLen.toNat ≤ s.targetLen.toNat + 2
  /-- INV3. -/
  inv3 : s.state = .searchFlag → s.headerFilled.toNat ≤ 3 ∧ s.targetLen = 0 ∧ s.receivedLen = 0 ∧
    s.cmdType = 0 ∧ s.cmdSubtype = 0 ∧ s.cmdLength = 0
  /-- INV4. -/
  inv4 : s.state = .collectHeader → 4 ≤ s.headerFilled.toNat ∧ s.headerFilled.toNat ≤ 9 ∧
    (∀ i < 4, hb s i = magic) ∧ s.targetLen = 0 ∧ s.receivedLen = 0 ∧
    s.cmdType = 0 ∧ s.cmdSubtype = 0 ∧ s.cmdLength = 0
  /-- INV5. -/
  inv5 : s.state = .collectData → s.headerFilled = 10 ∧ 1 ≤ s.targetLen.toNat ∧
    s.targetLen.toNat ≤ s.cfg.maxPayloadLen ∧ s.receivedLen.toNat ≤ s.targetLen.toNat + 1 ∧
    s.cmdLength = s.targetLen ∧ s.cmdType = hb s 4 ∧ s.cmdSubtype = hb s 5 ∧
    be16 (hb s 6) (hb s 7) = s.targetLen ∧ (∀ i < 4, hb s i = magic) ∧
    be16 (hb s 8) (hb s 9) = headerChecksum (hb s 4) (hb s 5) (be16 (hb s 6) (hb s 7))
  /-- INV6: nothing is stored outside the two buffers, and a frame being collected fits. -/
  inv6 : s.headerBuf.below 10 = true ∧ s.payload.below s.cfg.payloadCap = true ∧
    (s.state = .collectData → s.targetLen.toNat + 2 ≤ s.cfg.payloadCap)

/-- R35 and R32: what holds between transactions. -/
def Inv (s : State) : Prop := RxInv s ∧ s.queue = []

/-- R38: `s` with the decoder fields of the reset state `S0`; buffers, outputs and everything else as in
`s`. -/
def atS0 (s : State) : State :=
  { s with
    state := .searchFlag, headerFilled := 0, targetLen := 0, receivedLen := 0
    cmdType := 0, cmdSubtype := 0, cmdLength := 0 }

/-- R161: four magic bytes of the header window whose last one is at index `i`. -/
def MagicRun (s : State) (i : Nat) : Prop := ∀ k < 4, hb s (i - k) = magic

/-- R182: the bytes a frame has at wire offset `a`, and what lies behind it where it ends (R65, R83). -/
def frameByte (type subtype : Byte) (length : Half) (payload : List Byte) (old : Nat → Byte)
    (a : Nat) : Byte :=
  if a < 4 then magic
  else if a = 4 then type
  else if a = 5 then subtype
  else if a = 6 then hi8 length
  else if a = 7 then lo8 length
  else if a = 8 then hi8 (headerChecksum type subtype length)
  else if a = 9 then lo8 (headerChecksum type subtype length)
  else if length = 0 then old a
  else if a < 10 + length.toNat then payload.getD (a - 10) 0
  else if a = 10 + length.toNat then hi8 (payloadChecksum payload)
  else if a = 11 + length.toNat then lo8 (payloadChecksum payload)
  else old a

/-- R36: two states that differ only in bytes no rule reads: the header buffer outside the bytes collected
in CollectHeader, the payload buffer outside the bytes received in CollectData. -/
structure SameView (s t : State) : Prop where
  /-- Every other field. -/
  fields : { t with headerBuf := s.headerBuf, payload := s.payload } = s
  /-- The collected header bytes. -/
  header : s.state = .collectHeader → ∀ i < s.headerFilled.toNat, hb s i = hb t i
  /-- The received payload bytes. -/
  received : s.state = .collectData → ∀ i < s.receivedLen.toNat, s.payload.read i = t.payload.read i

end Sys2Proof.Machine
end

