-- ==== Sys2Proof/Certificates/Slice0/Obligations.lean ====
section
/-! DEFINITION. The statements for the provers, rule by rule. `hb s i` is byte `i` of the header buffer,
`pl s n` lists bytes 0 to `n - 1` of the payload buffer, `atS0 s` is `s` with the decoder fields of the reset
state. -/

open Sys2Proof Sys2Proof.Machine

/-! ### Checksum unit -/

/-- R112: the value `CSUM.HDR` answers, written with quotients and remainders; nothing else changes, and the
value is never 0xFFFF. -/
def Obligations.CsumHdrAnswersFoldedSum : Prop :=
  ∀ (t u : Byte) (n : Half) (s : State), ∃ c : Half,
    c = ~~~ BitVec.ofNat 16
      ((fun x => x % 65536 + x / 65536) ((fun x => x % 65536 + x / 65536)
        (0xFCFC + (t.toNat * 256 + u.toNat) + n.toNat))) ∧
    c ≠ 0xFFFF ∧ exec (.csumHdr t u n) s = .next { s with csum := s.csum ++ [c] }

/-- R113: the value `CSUM.PAY` answers, as the indexed sum of the rule; nothing else changes. An odd-length
sequence has the checksum of the sequence with one zero byte behind it, and two zero bytes behind an
even-length one change nothing. -/
def Obligations.CsumPayAnswersIndexedSum : Prop :=
  (∀ (p : List Byte) (s : State), p.length ≤ 65535 →
    exec (.csumPay p) s = .next { s with csum := s.csum ++
      [~~~ BitVec.ofNat 16
        ((fun x => x % 65536 + x / 65536) ((fun x => x % 65536 + x / 65536)
          (((List.range ((p.length + 1) / 2)).map fun j =>
            (p.getD (2 * j) 0).toNat * 256 + (p.getD (2 * j + 1) 0).toNat).sum)))] }) ∧
  (∀ p : List Byte,
    (p.length % 2 = 1 → payloadChecksum p = payloadChecksum (p ++ [0])) ∧
    (p.length % 2 = 0 → payloadChecksum p = payloadChecksum (p ++ [0, 0])))

/-- U11: more bytes than a u16 counts are not admitted at the port. -/
def Obligations.CsumPayRefusesLongSequence : Prop :=
  ∀ (p : List Byte) (s : State), 65535 < p.length →
    exec (.csumPay p) s = .refused (.csumPayTooLong p.length)

/-- R119: no sum overflows an accumulator of `ACC_W` bits. -/
def Obligations.AccumulatorNeverOverflows : Prop :=
  (∀ (t u : Byte) (n : Half), headerSum t u n ≤ 0x2FCFA ∧ headerSum t u n < 2 ^ 18) ∧
  (∀ p : List Byte, payloadSum p ≤ (p.length + 1) / 2 * 0xFFFF ∧
    (p.length ≤ 65535 → payloadSum p ≤ 0x7FFF8000 ∧ payloadSum p < 2 ^ 31) ∧
    (p.length ≤ 2034 → payloadSum p ≤ 0x03F8FC07 ∧ payloadSum p < 2 ^ 26)) ∧
  (∀ (c : Config) (t u : Byte) (n : Half) (p : List Byte), c.wf → p.length ≤ 65535 →
    headerSum t u n < 2 ^ c.accW ∧ payloadSum p < 2 ^ c.accW)

/-- R110, R111: the values of the two primitives; and (R120) two folds reach 16 bits, and folding only when
needed gives the same. -/
def Obligations.FoldAndNotValues : Prop :=
  (∀ x, fold16 x = x % 65536 + x / 65536) ∧
  (∀ x < 2 ^ 32, fold16 x ≤ 0x1FFFE ∧ fold16 (fold16 x) ≤ 0xFFFF ∧
    fold16 (fold16 x) =
      (fun y => if y ≤ 0xFFFF then y else fold16 y) (if x ≤ 0xFFFF then x else fold16 x)) ∧
  (∀ x ≤ 0x1FFFE, fold16 x ≤ 0xFFFF) ∧ (∀ x ≤ 0xFFFF, fold16 x = x) ∧
  (∀ v ≤ 0xFFFF, (not16 v).toNat = 0xFFFF - v ∧ not16 v = BitVec.ofNat 16 v ^^^ 0xFFFF)

/-- Against the sentence of R120 that one fold suffices for the header (notes/assumptions/8.md): some headers
need the second fold, and the checksum then differs from the one a single fold would give. -/
def Obligations.SomeHeaderNeedsSecondFold : Prop :=
  ∃ (t u : Byte) (n : Half), 0xFFFF < fold16 (headerSum t u n) ∧
    headerChecksum t u n ≠ not16 (fold16 (headerSum t u n))

/-- R121: the one's-complement facts: congruence, the two ends of the range, order independence, what is
not detected. -/
def Obligations.OnesComplementFacts : Prop :=
  (∀ x < 2 ^ 32, fold16 (fold16 x) % 0xFFFF = x % 0xFFFF ∧ fold16 (fold16 x) ≤ 0xFFFF ∧
    (fold16 (fold16 x) = 0 ↔ x = 0) ∧
    (x ≠ 0 → x % 0xFFFF = 0 → fold16 (fold16 x) = 0xFFFF)) ∧
  (∀ v w : List Half, (v.map BitVec.toNat).sum = (w.map BitVec.toNat).sum →
    payloadChecksum (v.flatMap fieldBytes) = payloadChecksum (w.flatMap fieldBytes)) ∧
  (∀ v w : List Half, v.Perm w →
    payloadChecksum (v.flatMap fieldBytes) = payloadChecksum (w.flatMap fieldBytes)) ∧
  (∀ p : List Byte, p.length ≤ 65535 →
    (payloadChecksum p = 0xFFFF ↔ ∀ b ∈ p, b = 0) ∧
    (payloadChecksum p = 0 ↔ fold16 (fold16 (payloadSum p)) = 0xFFFF))

/-- R122: summing all four words of a header whose first four bytes are magic gives the seeded value. -/
def Obligations.SeedStandsForMagicWords : Prop :=
  ∀ (t u : Byte) (n : Half),
    payloadChecksum [magic, magic, magic, magic, t, u, hi8 n, lo8 n] = headerChecksum t u n

/-! ### Encodings -/

/-- R56, R85, R86: a 16-bit field is its two bytes, high byte first. -/
def Obligations.FieldsAreBigEndian : Prop :=
  (∀ a b : Byte, (be16 a b).toNat = a.toNat * 256 + b.toNat ∧ hi8 (be16 a b) = a ∧ lo8 (be16 a b) = b) ∧
  (∀ v : Half, (hi8 v).toNat = v.toNat / 256 ∧ (lo8 v).toNat = v.toNat % 256 ∧
    be16 (hi8 v) (lo8 v) = v)

/-- R89: what each bit of the request word asks for; each requesting port gets its operation. -/
def Obligations.RequestWordSelectsOperations : Prop :=
  (∀ p : PortSample, decode (.ports p) =
    (if p.rq.getLsbD 0 then [.rxReset] else if p.rq.getLsbD 1 then [.rxByte p.rxData] else []) ++
    (if p.rq.getLsbD 2 then
      [.txEncode p.cmdValid p.txType p.txSubtype p.txLength p.txpl p.destCapacity] else []) ++
    (if p.rq.getLsbD 3 then
      (if p.rq.getLsbD 4 then [.csumPay p.csData] else [.csumHdr p.csType p.csSubtype p.csLength])
    else [])) ∧
  (∀ (p : PortSample) (rest : List Stimulus) (s : State), p.rq = 0 → s.inputs = .ports p :: rest →
    step s = .next { s with inputs := rest })

/-- R96: with `soft_reset` the reset is performed and a byte on `rx` is not taken; `cs_mode` is ignored when
`cs_req` is 0. -/
def Obligations.SoftResetBeatsReceive : Prop :=
  (∀ p : PortSample, p.rq.getLsbD 0 = true → rxReady p.rq = false ∧ .rxReset ∈ decode (.ports p) ∧
    ∀ b, .rxByte b ∉ decode (.ports p)) ∧
  (∀ p : PortSample, p.rq.getLsbD 3 = false →
    decode (.ports p) = decode (.ports { p with rq := p.rq &&& 0b01111 })) ∧
  (∀ (p : PortSample) (rest : List Stimulus) (s : State), s.inputs = .ports p :: rest →
    p.rq.getLsbD 0 = true → p.rq.getLsbD 2 = false → p.rq.getLsbD 3 = false →
    step s = .next (atS0 { s with inputs := rest }))

/-- Decoding an encoded well-formed operation gives it back, for every operation that has an encoding and
every value of its operands. -/
def Obligations.DecodeEncodeAgree : Prop :=
  ∀ (i : Instr) (x : Stimulus), i.wf = true → encode i = some x → decode x = [i]

/-- The other direction for wire bytes: bytes that decode to a frame are its encoding, and the frame is
well-formed. Decoding a frame does not look at its checksums (the model's choice, notes/assumptions/11.md). -/
def Obligations.EncodeDecodeFrameAgree : Prop :=
  ∀ (bs : List Byte) (i : Instr), decodeFrame bs = .ok i → i.wf = true ∧ encode i = some (.frame bs)

/-- Which byte sequences the model decodes as frames, by the masks of R82 and R83 and the lengths of R80. The
checksums are not looked at: that is the model's choice (notes/assumptions/11.md). What R81 and R93 ask of them
beyond the masks is `Instr.checksumsOk`, and a frame that fails it runs into HDR_CRC or PAY_CRC. -/
def Obligations.FrameShapeDecides : Prop :=
  ∀ bs : List Byte, (∃ i, decodeFrame bs = .ok i) ↔
    10 ≤ bs.length ∧ (∀ k < 4, bs.getD k 0 = magic) ∧
    bs.length = if be16 (bs.getD 6 0) (bs.getD 7 0) = 0 then 10
      else 12 + (be16 (bs.getD 6 0) (bs.getD 7 0)).toNat

/-- R12: no request and no wire bytes select an internal micro-operation. -/
def Obligations.InternalOperationsHaveNoSelector : Prop :=
  ∀ (x : Stimulus) (i : Instr), i ∈ decode x → i.isInternal = false ∧ encode i ≠ none

/-- The bits of these words are written out from R81 and R89. Three things are the model's choice: the zero
operands of the request words, the payload `[0]` and its checksum 0 behind the second header word
(notes/assumptions/7.md: a table word is filled up with zeros), and that a word is answered by one operation
(notes/assumptions/18.md). -/
def Obligations.WrittenWordsDecode : Prop :=
  decodeTableWord 8 0b00001 = some .rxReset ∧
  decodeTableWord 8 0b00010 = some (.rxByte 0) ∧
  decodeTableWord 8 0b00100 = some (.txEncode false 0 0 0 [] 0) ∧
  decodeTableWord 8 0b01000 = some (.csumHdr 0 0 0) ∧
  decodeTableWord 8 0b11000 = some (.csumPay []) ∧
  decodeTableWord 80 0x7E7E7E7E0104000001FF = some (.frameH 0x01 0x04 0x01FF) ∧
  decodeTableWord 80 0x7E7E7E7E0209000100F9 = some (.frameHP 0x02 0x09 1 0x00F9 [0] 0)

/-- R101: the numeric codes. -/
def Obligations.CodesOfEnumerations : Prop :=
  stateCode .searchFlag = 0 ∧ stateCode .collectHeader = 1 ∧ stateCode .collectData = 2 ∧
  (∀ n, resultCode (.ok n) = 0) ∧ resultCode .invalidArgument = 1 ∧
  (∀ t u n p, eventCode (.dispatch t u n p) = 0) ∧ (∀ c r, eventCode (.hdrCrc c r) = 1) ∧
  (∀ n, eventCode (.len n) = 2) ∧ (∀ c r k, eventCode (.payCrc c r k) = 3)

/-! ### One step -/

/-- A transaction runs the decoded operations, one after the other, after the input has been taken; with no
input nothing happens. That a step takes the head of a list of inputs is the model's choice
(notes/assumptions/7.md), and so is the fixed order in which several requests run, up to the first that stops
(notes/assumptions/14.md; R210 allows any order). -/
def Obligations.StepRunsDecodedOperations : Prop :=
  (∀ (s : State) (x : Stimulus) (rest : List Stimulus), s.inputs = x :: rest →
    step s = (decode x).foldl (fun r i => andThen r (exec i)) (.next { s with inputs := rest }) ∧
    ∀ i, decode x = [i] → step s = exec i { s with inputs := rest }) ∧
  (∀ s : State, s.inputs = [] → step s = .next s)

/-- A table word presented to the machine is what the next step runs. -/
def Obligations.OfferedWordRunsNext : Prop :=
  ∀ (s : State) (nbits w : Nat) (x : Stimulus) (i : Instr), tableStimulus nbits w = some x →
    decode x = [i] → step (s.withFetchWord nbits w) = exec i s

/-! ### Reset -/

/-- R38, R231: the values of the reset state `S0`, which hardware reset creates with an empty queue and no
event, and which `RX.RESET` and `RESET_INT` produce; those two leave the buffers unchanged. -/
def Obligations.ResetStateValues : Prop :=
  (State.reset.state = .searchFlag ∧ State.reset.headerFilled = 0 ∧ State.reset.targetLen = 0 ∧
    State.reset.receivedLen = 0 ∧ State.reset.cmdType = 0 ∧ State.reset.cmdSubtype = 0 ∧
    State.reset.cmdLength = 0 ∧ State.reset.queue = [] ∧ State.reset.trace = []) ∧
  (∀ s : State, ∀ i ∈ [Instr.rxReset, .resetInt], ∃ t, exec i s = .next t ∧
    t.state = .searchFlag ∧ t.headerFilled = 0 ∧ t.targetLen = 0 ∧ t.receivedLen = 0 ∧ t.cmdType = 0 ∧
    t.cmdSubtype = 0 ∧ t.cmdLength = 0 ∧ t.headerBuf = s.headerBuf ∧ t.payload = s.payload)

/-- R142, R145: `RX.RESET` and `RESET_INT` change the decoder fields to those of `S0` and nothing else: the
buffers stay, no event is emitted; `RX.RESET` is idempotent. -/
def Obligations.ResetOperationsGoToS0 : Prop :=
  ∀ s : State, exec .rxReset s = .next (atS0 s) ∧ exec .resetInt s = .next (atS0 s) ∧
    andThen (exec .rxReset s) (exec .rxReset) = exec .rxReset s

/-- The invariant holds at reset. -/
def Obligations.ResetSatisfiesInvariant : Prop := Inv State.reset

/-! ### One received byte -/

/-- R131: a byte in SearchFlag. -/
def Obligations.SearchFlagByte : Prop :=
  ∀ (b : Byte) (s : State), s.state = .searchFlag → s.headerFilled.toNat ≤ 3 → s.headerBuf.wf = true →
    (b ≠ magic → exec (.rxByte b) s = .next { s with headerFilled := 0, queue := [] }) ∧
    (b = magic → s.headerFilled.toNat < 3 →
      exec (.rxByte b) s = .next { s with headerFilled := s.headerFilled + 1, queue := [] }) ∧
    (b = magic → s.headerFilled = 3 →
      ∃ m : Memory, m.wf = true ∧ (∀ i, m.read i = if i < 4 then magic else hb s i) ∧
        exec (.rxByte b) s = .next
          { s with state := .collectHeader, headerFilled := 4, headerBuf := m, queue := [] })

/-- R132: a byte in CollectHeader is stored, and the tenth one starts `HDRCHK`. -/
def Obligations.CollectHeaderByte : Prop :=
  ∀ (b : Byte) (s : State), s.state = .collectHeader → s.headerFilled.toNat ≤ 9 →
    s.headerBuf.wf = true →
    ∃ m : Memory, m.wf = true ∧ (∀ i, m.read i = if i = s.headerFilled.toNat then b else hb s i) ∧
      (s.headerFilled.toNat < 9 → exec (.rxByte b) s = .next
        { s with headerBuf := m, headerFilled := s.headerFilled + 1, queue := [] }) ∧
      (s.headerFilled = 9 → exec (.rxByte b) s = exec .hdrchk
        { s with headerBuf := m, headerFilled := 10, queue := [] })

/-- R134: a byte in CollectData is stored, and the last one starts `PAYCHK`; what that leaves in the queue is
received before the transaction ends. -/
def Obligations.CollectDataByte : Prop :=
  ∀ (b : Byte) (s : State), s.state = .collectData →
    s.receivedLen.toNat ≤ s.targetLen.toNat + 1 → s.targetLen.toNat + 2 ≤ s.cfg.payloadCap →
    s.cfg.payloadCap ≤ 65535 → s.payload.wf = true →
    ∃ m : Memory, m.wf = true ∧
      (∀ i, m.read i = if i = s.receivedLen.toNat then b else s.payload.read i) ∧
      (s.receivedLen.toNat < s.targetLen.toNat + 1 → exec (.rxByte b) s = .next
        { s with payload := m, receivedLen := s.receivedLen + 1, queue := [] }) ∧
      (s.receivedLen.toNat = s.targetLen.toNat + 1 → exec (.rxByte b) s =
        andThen (exec .paychk { s with payload := m, receivedLen := s.receivedLen + 1, queue := [] })
          fun t => exec (.rxParse t.queue) { t with queue := [] })

/-- R130, R167: replayed bytes are received as if they stood in front of the input not yet received: the
loop over a queue is the reception of its bytes, and a queue is consumed from its front. -/
def Obligations.ReplayIsReception : Prop :=
  ∀ (q : List Byte) (s : State) (fuel : Nat), (potential { s with queue := q } + 1) ^ 2 ≤ fuel →
    drain fuel { s with queue := q } = exec (.rxParse q) { s with queue := [] }

/-- R149: from every state that satisfies R35, every byte, chunk and frame is received, and R35 holds
again. -/
def Obligations.ReceptionIsTotal : Prop :=
  ∀ s : State, Inv s →
    (∀ b, ∃ t, exec (.rxByte b) s = .next t ∧ Inv t) ∧
    (∀ bs, ∃ t, exec (.rxParse bs) s = .next t ∧ Inv t) ∧
    (∀ t u h, ∃ t', exec (.frameH t u h) s = .next t' ∧ Inv t') ∧
    (∀ t u n h p c, ∃ t', exec (.frameHP t u n h p c) s = .next t' ∧ Inv t')

/-- R168: the loop never meets its bound, and from a state that satisfies R35 the bound is at most
`(13 + MAX_PAYLOAD_LEN)^2`. -/
def Obligations.LoopBoundSuffices : Prop :=
  (∀ (b : Byte) (s : State), exec (.rxByte b) s ≠ .fault .loopBound) ∧
  (∀ (b : Byte) (s : State), Inv s →
    loopFuel { s with queue := [b] } ≤ (13 + s.cfg.maxPayloadLen) ^ 2)

/-- R144: `RX.PARSE` is the left fold of `RX.BYTE`. -/
def Obligations.ParseIsFoldOfBytes : Prop :=
  ∀ (bs : List Byte) (s : State),
    exec (.rxParse bs) s = bs.foldl (fun r b => andThen r (exec (.rxByte b))) (.next s)

/-- R146: chunk boundaries carry no meaning. -/
def Obligations.ChunkingInvariance : Prop :=
  ∀ (x y : List Byte) (s : State),
    exec (.rxParse (x ++ y)) s = andThen (exec (.rxParse x) s) (exec (.rxParse y))

/-- R100: a frame is received as its bytes, and so are wire bytes that are no frame. -/
def Obligations.FramesAreReceivedAsBytes : Prop :=
  (∀ t u h s, exec (.frameH t u h) s =
    exec (.rxParse [0x7E, 0x7E, 0x7E, 0x7E, t, u, 0, 0, hi8 h, lo8 h]) s) ∧
  (∀ t u n h p c s, exec (.frameHP t u n h p c) s =
    exec (.rxParse ([0x7E, 0x7E, 0x7E, 0x7E, t, u, hi8 n, lo8 n, hi8 h, lo8 h] ++ p ++ [hi8 c, lo8 c])) s) ∧
  (∀ (bs : List Byte) (rest : List Stimulus) (s : State), s.inputs = .frame bs :: rest →
    step s = exec (.rxParse bs) { s with inputs := rest })

/-! ### Checks inside a byte -/

/-- R133, R202, R203, R209: `HDRCHK`. -/
def Obligations.HdrchkOutcomes : Prop :=
  ∀ (s : State) (n r c : Half), n = be16 (hb s 6) (hb s 7) → r = be16 (hb s 8) (hb s 9) →
    c = headerChecksum (hb s 4) (hb s 5) n →
    (c ≠ r → exec .hdrchk s = exec .resync { s with trace := s.trace ++ [.hdrCrc c r] }) ∧
    (c = r → n = 0 → exec .hdrchk s =
      .next (atS0 { s with trace := s.trace ++ [.dispatch (hb s 4) (hb s 5) 0 []] })) ∧
    (c = r → n ≠ 0 → n.toNat ≤ s.cfg.maxPayloadLen → exec .hdrchk s = .next
      { s with state := .collectData, targetLen := n, receivedLen := 0,
               cmdType := hb s 4, cmdSubtype := hb s 5, cmdLength := n }) ∧
    (c = r → s.cfg.maxPayloadLen < n.toNat → exec .hdrchk s = exec .resync
      { s with cmdType := hb s 4, cmdSubtype := hb s 5, cmdLength := n,
               trace := s.trace ++ [.len n] }) ∧
    ∃ t, exec .hdrchk s = .next t

/-- R135, R205, R209: `PAYCHK`. -/
def Obligations.PaychkOutcomes : Prop :=
  ∀ (s : State) (r c : Half), s.targetLen.toNat + 2 ≤ s.cfg.payloadCap →
    s.cmdLength.toNat ≤ s.cfg.payloadCap →
    r = be16 (s.payload.read s.targetLen.toNat) (s.payload.read (s.targetLen.toNat + 1)) →
    c = payloadChecksum (pl s s.targetLen.toNat) →
    (c = r → exec .paychk s = .next (atS0 { s with trace := s.trace ++
      [.dispatch s.cmdType s.cmdSubtype s.cmdLength (pl s s.cmdLength.toNat)] })) ∧
    (c ≠ r → s.cmdSubtype = s.cfg.memdump0 ∨ s.cmdSubtype = s.cfg.memdump1 →
      exec .paychk s = .next (atS0 s)) ∧
    (c ≠ r → s.cmdSubtype ≠ s.cfg.memdump0 → s.cmdSubtype ≠ s.cfg.memdump1 →
      exec .paychk s = exec (.payrescan c r) s) ∧
    ∃ t, exec .paychk s = .next t

/-- R140, R141: `DISPATCH` emits the command with a copy of exactly `length` payload bytes and changes no
state. -/
def Obligations.DispatchEmitsCommand : Prop :=
  ∀ s : State, s.cmdLength.toNat ≤ s.cfg.payloadCap →
    ∃ p : List Byte, p.length = s.cmdLength.toNat ∧
      (∀ j < s.cmdLength.toNat, p.getD j 0 = s.payload.read j) ∧
      exec .dispatch s = .next { s with trace := s.trace ++
        [.dispatch s.cmdType s.cmdSubtype s.cmdLength p] }

/-- R161, R162, R163: the run nearest the end of the window wins, and the bytes from its first one on move to
the start of the buffer as they were before the move. -/
def Obligations.ResyncShiftsLatestRun : Prop :=
  ∀ (s : State) (i : Nat), s.headerBuf.wf = true → 4 ≤ i → i ≤ 9 → MagicRun s i →
    (∀ j, i < j → j ≤ 9 → ¬ MagicRun s j) →
    ∃ m : Memory, m.wf = true ∧
      (∀ j, m.read j = if j < 13 - i then hb s (i - 3 + j) else hb s j) ∧
      exec .resync s = .next { s with
        state := .collectHeader, headerFilled := BitVec.ofNat 16 (13 - i), headerBuf := m,
        targetLen := 0, receivedLen := 0, cmdType := 0, cmdSubtype := 0, cmdLength := 0 }

/-- R164: without a run, a window that ends in a magic byte leaves the length of the run at its end. -/
def Obligations.ResyncKeepsTailRun : Prop :=
  ∀ s : State, (∀ i, 4 ≤ i → i ≤ 9 → ¬ MagicRun s i) → hb s 9 = magic →
    ∃ t, 1 ≤ t ∧ t ≤ 3 ∧ (∀ k < t, hb s (9 - k) = magic) ∧ hb s (9 - t) ≠ magic ∧
      exec .resync s = .next { atS0 s with headerFilled := BitVec.ofNat 16 t }

/-- R165: otherwise the whole window is lost. -/
def Obligations.ResyncDropsWindow : Prop :=
  ∀ s : State, (∀ i, 4 ≤ i → i ≤ 9 → ¬ MagicRun s i) → hb s 9 ≠ magic →
    exec .resync s = .next (atS0 s)

/-- R166, R204: the payload rescan. -/
def Obligations.PayrescanKeepsFromFirstMagic : Prop :=
  ∀ (c r : Half) (s : State) (k : Nat), s.targetLen.toNat + 2 ≤ s.cfg.payloadCap →
    k ≤ s.targetLen.toNat + 2 → (∀ j < k, s.payload.read j ≠ magic) →
    (k < s.targetLen.toNat + 2 → s.payload.read k = magic) →
    ∃ replay : List Byte, replay.length = s.targetLen.toNat + 2 - k ∧
      (∀ j < s.targetLen.toNat + 2 - k, replay.getD j 0 = s.payload.read (k + j)) ∧
      exec (.payrescan c r) s = .next (atS0 { s with
        trace := s.trace ++ [.payCrc c r k], queue := replay ++ s.queue })

/-- INV6 of R35 and notes/assumptions/5.md: where an access would leave a buffer the model stops, and says
so. -/
def Obligations.AccessOutsideBufferFaults : Prop :=
  ∀ s : State,
    (s.cfg.payloadCap < s.targetLen.toNat + 2 →
      exec .paychk s = .fault (.payloadIndex s.cfg.payloadCap) ∧
      ∀ c r, exec (.payrescan c r) s = .fault (.payloadIndex s.cfg.payloadCap)) ∧
    (s.cfg.payloadCap < s.cmdLength.toNat →
      exec .dispatch s = .fault (.payloadIndex s.cfg.payloadCap)) ∧
    (s.state = .collectHeader → 10 ≤ s.headerFilled.toNat →
      ∀ b, exec (.rxByte b) s = .fault (.headerIndex s.headerFilled.toNat)) ∧
    (s.state = .collectData → s.cfg.payloadCap ≤ s.receivedLen.toNat →
      ∀ b, exec (.rxByte b) s = .fault (.payloadIndex s.receivedLen.toNat))

/-! ### Whole frames -/

/-- R82, R141: a header-only frame received between frames is dispatched with an empty payload, and the
decoder is between frames again. -/
def Obligations.HeaderOnlyFrameDispatches : Prop :=
  ∀ (t u : Byte) (s : State), Inv s → s.state = .searchFlag → s.headerFilled = 0 →
    ∃ m : Memory,
      (∀ i, m.read i = if i < 10 then frameByte t u 0 [] (fun _ => 0) i else hb s i) ∧
      exec (.frameH t u (headerChecksum t u 0)) s = .next
        { s with headerBuf := m, trace := s.trace ++ [.dispatch t u 0 []] }

/-- R83, R84: a frame with any payload the receiver accepts is dispatched with exactly that payload. -/
def Obligations.PayloadFrameDispatches : Prop :=
  ∀ (t u : Byte) (n : Half) (p : List Byte) (s : State), Inv s → s.state = .searchFlag →
    s.headerFilled = 0 → n ≠ 0 → n.toNat ≤ s.cfg.maxPayloadLen → p.length = n.toNat →
    ∃ m m' : Memory,
      (∀ i, m.read i = if i < 10 then frameByte t u n p (fun _ => 0) i else hb s i) ∧
      (∀ i, m'.read i =
        if i < n.toNat + 2 then frameByte t u n p (fun _ => 0) (10 + i) else s.payload.read i) ∧
      exec (.frameHP t u n (headerChecksum t u n) p (payloadChecksum p)) s = .next
        { s with headerBuf := m, payload := m', trace := s.trace ++ [.dispatch t u n p] }

/-- R93, R202: a header-only frame with a wrong checksum is not dispatched; one HDR_CRC event is emitted, and
unless a magic byte in it could open another frame the decoder is between frames again. -/
def Obligations.DamagedHeaderIsNotDispatched : Prop :=
  ∀ (t u : Byte) (h : Half) (s : State), Inv s → s.state = .searchFlag → s.headerFilled = 0 →
    h ≠ headerChecksum t u 0 →
    ∃ s', exec (.frameH t u h) s = .next s' ∧
      s'.trace = s.trace ++ [.hdrCrc (headerChecksum t u 0) h] ∧
      (t ≠ magic → lo8 h ≠ magic → s'.state = .searchFlag ∧ s'.headerFilled = 0)

/-- R94, R203: the header of an oversized frame is refused with one LEN event, and no payload byte is
stored. -/
def Obligations.OversizedHeaderIsRefused : Prop :=
  ∀ (t u : Byte) (n : Half) (s : State), Inv s → s.state = .searchFlag → s.headerFilled = 0 →
    s.cfg.maxPayloadLen < n.toNat →
    ∃ s', exec (.rxParse (headerBytes t u n (headerChecksum t u n))) s = .next s' ∧
      s'.trace = s.trace ++ [.len n] ∧ s'.payload = s.payload ∧ s'.state ≠ .collectData

/-- R135, R166, R204, R205: a frame with a good header and a damaged payload checksum, received between
frames, is not itself dispatched. With a memdump subtype there is no event and the decoder is between frames
again. With another subtype there is one PAY_CRC event that tells where the first magic byte behind the header
is, and what follows is the reception of the bytes from that one on, by a decoder between frames (they may
hold or open other frames); when there is none, nothing is replayed and the decoder is between frames again. -/
def Obligations.DamagedPayloadIsNotDispatched : Prop :=
  ∀ (t u : Byte) (n c : Half) (p : List Byte) (s : State), Inv s → s.state = .searchFlag →
    s.headerFilled = 0 → n ≠ 0 → n.toNat ≤ s.cfg.maxPayloadLen → p.length = n.toNat →
    c ≠ payloadChecksum p →
    ∃ m m' : Memory,
      (∀ i, m.read i = if i < 10 then frameByte t u n p (fun _ => 0) i else hb s i) ∧
      (∀ i, m'.read i =
        if i < n.toNat + 2 then (p ++ [hi8 c, lo8 c]).getD i 0 else s.payload.read i) ∧
      (u = s.cfg.memdump0 ∨ u = s.cfg.memdump1 →
        exec (.frameHP t u n (headerChecksum t u n) p c) s =
          .next { s with headerBuf := m, payload := m' }) ∧
      (u ≠ s.cfg.memdump0 → u ≠ s.cfg.memdump1 →
        (∀ k < n.toNat + 2, (p ++ [hi8 c, lo8 c]).getD k 0 = magic →
          (∀ j < k, (p ++ [hi8 c, lo8 c]).getD j 0 ≠ magic) →
          exec (.frameHP t u n (headerChecksum t u n) p c) s =
            exec (.rxParse ((p ++ [hi8 c, lo8 c]).drop k)) { s with
              headerBuf := m, payload := m'
              trace := s.trace ++ [.payCrc (payloadChecksum p) c k] }) ∧
        ((∀ b ∈ p, b ≠ magic) → hi8 c ≠ magic → lo8 c ≠ magic →
          exec (.frameHP t u n (headerChecksum t u n) p c) s =
            .next { s with
              headerBuf := m, payload := m'
              trace := s.trace ++ [.payCrc (payloadChecksum p) c (n.toNat + 2)] }))

/-- R185: what the encoder writes for a valid command, the decoder dispatches, and it is between frames
again. -/
def Obligations.EncodeThenParseRoundTrips : Prop :=
  ∀ (t u : Byte) (n : Half) (p : List Byte) (cap : Nat) (s r : State), Inv r →
    r.state = .searchFlag → r.headerFilled = 0 → s.cfg = r.cfg → s.dest.wf = true →
    n.toNat ≤ s.cfg.maxPayloadLen → n.toNat ≤ p.length → 10 < cap → (n ≠ 0 → 12 + n.toNat ≤ cap) →
    ∃ (s' r' : State) (len : Nat), exec (.txEncode true t u n p cap) s = .next s' ∧
      s'.txo = s.txo ++ [.ok len] ∧
      exec (.rxParse (s'.dest.readBytes 0 len)) r = .next r' ∧
      r'.trace = r.trace ++ [.dispatch t u n (p.take n.toNat)] ∧ atS0 r' = r' ∧ r'.queue = []

/-- R185, second case, for both frame formats, but for the frames of notes/assumptions/9.md (a type that is
magic, or after one magic byte a frame whose bytes 5 to 8 are magic): after 1 to 3 magic bytes a frame is
dispatched too, behind the HDR_CRC event of the misaligned window `w`, unless that window happens to check. -/
def Obligations.PartialRunRealigns : Prop :=
  ∀ (t u : Byte) (n : Half) (p : List Byte) (s : State) (w : List Byte), Inv s →
    s.state = .searchFlag → 1 ≤ s.headerFilled.toNat → n.toNat ≤ s.cfg.maxPayloadLen →
    p.length = n.toNat → t ≠ magic →
    ¬ (s.headerFilled = 1 ∧ u = magic ∧ n = be16 magic magic ∧
        hi8 (headerChecksum t u n) = magic) →
    w = (List.replicate s.headerFilled.toNat magic ++
      headerBytes t u n (headerChecksum t u n)).take 10 →
    headerChecksum (w.getD 4 0) (w.getD 5 0) (be16 (w.getD 6 0) (w.getD 7 0)) ≠
      be16 (w.getD 8 0) (w.getD 9 0) →
    ∃ m : Memory,
      (∀ i, m.read i = if i < 10 then frameByte t u n p (fun _ => 0) i else hb s i) ∧
      (n = 0 → exec (.frameH t u (headerChecksum t u n)) s = .next
        { s with
          headerFilled := 0, headerBuf := m
          trace := s.trace ++
            [.hdrCrc (headerChecksum (w.getD 4 0) (w.getD 5 0) (be16 (w.getD 6 0) (w.getD 7 0)))
              (be16 (w.getD 8 0) (w.getD 9 0)),
             .dispatch t u 0 []] }) ∧
      (n ≠ 0 → ∃ m' : Memory,
        (∀ i, m'.read i =
          if i < n.toNat + 2 then frameByte t u n p (fun _ => 0) (10 + i) else s.payload.read i) ∧
        exec (.frameHP t u n (headerChecksum t u n) p (payloadChecksum p)) s = .next
          { s with
            headerFilled := 0, headerBuf := m, payload := m'
            trace := s.trace ++
              [.hdrCrc (headerChecksum (w.getD 4 0) (w.getD 5 0) (be16 (w.getD 6 0) (w.getD 7 0)))
                (be16 (w.getD 8 0) (w.getD 9 0)),
               .dispatch t u n p] })

/-! ### Encoder -/

/-- R182, R183, R206: an accepted command writes exactly the bytes of its frame, at exactly these offsets (of
its payload buffer the first `length` bytes), and answers its length; a refused one answers
`InvalidArgument` and writes no byte, whatever its other operands. -/
def Obligations.TxEncodeWritesFrameOrRefuses : Prop :=
  ∀ (v : Bool) (t u : Byte) (n : Half) (p : List Byte) (cap : Nat) (s : State),
    (v = true → 10 < cap → n.toNat ≤ s.cfg.maxPayloadLen → (n ≠ 0 → 12 + n.toNat ≤ cap) →
      n.toNat ≤ p.length → s.dest.wf = true →
      ∃ m : Memory, m.wf = true ∧ (∀ a, m.read a = frameByte t u n (p.take n.toNat) s.dest.read a) ∧
        exec (.txEncode v t u n p cap) s = .next
          { s with dest := m, txo := s.txo ++ [.ok (if n = 0 then 10 else 12 + n.toNat)] }) ∧
    (v = false ∨ cap ≤ 10 ∨ s.cfg.maxPayloadLen < n.toNat ∨ (n ≠ 0 ∧ cap < 12 + n.toNat) →
      exec (.txEncode v t u n p cap) s = .next { s with txo := s.txo ++ [.invalidArgument] })

/-- R181: `TX.FILLHDR` writes the ten header bytes and nothing else. -/
def Obligations.TxFillhdrWritesHeader : Prop :=
  ∀ (t u : Byte) (n : Half) (s : State), s.dest.wf = true →
    ∃ m : Memory, m.wf = true ∧
      (∀ a, m.read a = if a < 10 then frameByte t u n [] s.dest.read a else s.dest.read a) ∧
      exec (.txFillhdr t u n) s = .next { s with dest := m }

/-- R182, R6: an encoded length fits in `LEN_W` bits. -/
def Obligations.EncodedLengthFitsPort : Prop :=
  ∀ (v : Bool) (t u : Byte) (n : Half) (p : List Byte) (cap : Nat) (s s' : State) (len : Nat),
    s.cfg.wf → exec (.txEncode v t u n p cap) s = .next s' → s'.txo = s.txo ++ [.ok len] →
    len ≤ 12 + s.cfg.maxPayloadLen ∧ len ≤ cap ∧ len < 2 ^ s.cfg.lenW

/-- R184: the encoder reads its operands (and the parameters) only: from two states with equal parameters
and equal destination bytes it gives equal results and equal bytes, and it changes nothing else. -/
def Obligations.EncoderIsStateless : Prop :=
  ∀ (v : Bool) (t u : Byte) (n : Half) (p : List Byte) (cap : Nat) (s s' : State), s.cfg = s'.cfg →
    s.dest = s'.dest →
    ∃ (m : Memory) (r : EncResult),
      exec (.txEncode v t u n p cap) s = .next { s with dest := m, txo := s.txo ++ [r] } ∧
      exec (.txEncode v t u n p cap) s' = .next { s' with dest := m, txo := s'.txo ++ [r] }

/-! ### The whole machine -/

/-- R35, R149: every transaction keeps the invariant. -/
def Obligations.StepKeepsInvariant : Prop :=
  ∀ s t : State, Inv s → step s = .next t → Inv t

/-- R149, R216: from a state that satisfies the invariant, every stimulus the ports admit is served. -/
def Obligations.StepNeverStops : Prop :=
  ∀ s : State, Inv s → (∀ x ∈ s.inputs.head?, x.wf = true) → ∃ t, step s = .next t

/-- R236, R6: no transaction writes a parameter. That each takes one stimulus from the list of inputs is about
the model's own field and the model's choice (notes/assumptions/7.md). -/
def Obligations.ParametersNeverChange : Prop :=
  ∀ s t : State, step s = .next t → t.cfg = s.cfg ∧ t.inputs = s.inputs.tail

/-- What has been emitted stays emitted, in order (R207, of the events). The three lists that only grow are the
model's record of the outputs and the model's choice (notes/assumptions/4.md): the block keeps none (R37). -/
def Obligations.OutputsOnlyGrow : Prop :=
  ∀ s t : State, step s = .next t →
    s.trace <+: t.trace ∧ s.txo <+: t.txo ∧ s.csum <+: t.csum

/-- R54, R184: only the encoder writes `DEST` and its result port, only the checksum operations answer a
checksum, and neither of them changes the decoder. -/
def Obligations.UnitsKeepApart : Prop :=
  ∀ (i : Instr) (s t : State), exec i s = .next t →
    ((∀ v a b n p c, i ≠ .txEncode v a b n p c) → (∀ a b n, i ≠ .txFillhdr a b n) →
      t.dest = s.dest ∧ t.txo = s.txo) ∧
    ((∀ a b n, i ≠ .csumHdr a b n) → (∀ p, i ≠ .csumPay p) → t.csum = s.csum) ∧
    ((∃ v a b n p c, i = .txEncode v a b n p c) ∨ (∃ a b n, i = .csumHdr a b n) ∨
        (∃ p, i = .csumPay p) ∨ (∃ a b n, i = .txFillhdr a b n) →
      { t with dest := s.dest, txo := s.txo, csum := s.csum } = s)

/-- R68, R210: requests at different ports give the same in either order: a receive or reset and an encode
or checksum request, and an encode and a checksum request. -/
def Obligations.IndependentPortsCommute : Prop :=
  (∀ (i j : Instr) (s : State),
    (i = .rxReset ∨ (∃ b, i = .rxByte b) ∨ (∃ bs, i = .rxParse bs) ∨ (∃ t u h, i = .frameH t u h) ∨
      (∃ t u n h p c, i = .frameHP t u n h p c)) →
    ((∃ v t u n p c, j = .txEncode v t u n p c) ∨ (∃ t u n, j = .csumHdr t u n) ∨
      (∃ p, p.length ≤ 65535 ∧ j = .csumPay p)) →
    andThen (exec i s) (exec j) = andThen (exec j s) (exec i)) ∧
  (∀ (i j : Instr) (s : State), (∃ v t u n p c, i = .txEncode v t u n p c) →
    ((∃ t u n, j = .csumHdr t u n) ∨ (∃ p, j = .csumPay p)) →
    andThen (exec i s) (exec j) = andThen (exec j s) (exec i))

/-- R36: stale buffer bytes are unobservable: states that look the same go on to look the same, with the
same events. -/
def Obligations.StaleBytesAreUnobservable : Prop :=
  ∀ (b : Byte) (s t : State), Inv s → Inv t → SameView s t →
    ∃ s' t', exec (.rxByte b) s = .next s' ∧ exec (.rxByte b) t = .next t' ∧ s'.trace = t'.trace ∧
      SameView s' t'

/-- R140, R94: every command dispatched by a transaction carries exactly `length` bytes and at most
`MAX_PAYLOAD_LEN`. -/
def Obligations.DispatchedPayloadIsBounded : Prop :=
  ∀ s t : State, Inv s → step s = .next t →
    ∀ (ty su : Byte) (n : Half) (p : List Byte), .dispatch ty su n p ∈ t.trace.drop s.trace.length →
      p.length = n.toNat ∧ n.toNat ≤ s.cfg.maxPayloadLen
end

