-- ==== Sys2Proof/Laws/Checksum.lean ====
section
/-! SUPPORT. Laws of field assembly and of the one's-complement sums. -/

namespace Sys2Proof.Machine

theorem toNat_be16 (a b : Byte) : (be16 a b).toNat = a.toNat * 256 + b.toNat := by
  have ha := a.isLt
  have hb := b.isLt
  simp only [be16, zext, BitVec.toNat_or, BitVec.toNat_shiftLeft, BitVec.toNat_setWidth,
    Nat.shiftLeft_eq]
  have h1 : a.toNat % 2 ^ 16 * 2 ^ 8 % 2 ^ 16 = 2 ^ 8 * a.toNat := by omega
  have h2 : b.toNat % 2 ^ 16 = b.toNat := by omega
  rw [h1, h2, ← Nat.two_pow_add_eq_or_of_lt (by omega)]
  omega

theorem toNat_hi8 (v : Half) : (hi8 v).toNat = v.toNat / 256 := by
  have := v.isLt
  simp only [hi8, BitVec.extractLsb'_toNat, Nat.shiftRight_eq_div_pow]
  omega

theorem toNat_lo8 (v : Half) : (lo8 v).toNat = v.toNat % 256 := by
  simp [lo8, BitVec.extractLsb'_toNat]

/-- R56, R86: a field written high byte first is read back. -/
@[simp] theorem be16_hi8_lo8 (v : Half) : be16 (hi8 v) (lo8 v) = v := by
  apply BitVec.eq_of_toNat_eq
  rw [toNat_be16, toNat_hi8, toNat_lo8]
  omega

@[simp] theorem hi8_be16 (a b : Byte) : hi8 (be16 a b) = a := by
  apply BitVec.eq_of_toNat_eq
  have := b.isLt
  rw [toNat_hi8, toNat_be16]
  omega

@[simp] theorem lo8_be16 (a b : Byte) : lo8 (be16 a b) = b := by
  apply BitVec.eq_of_toNat_eq
  have := b.isLt
  rw [toNat_lo8, toNat_be16]
  omega

theorem toNat_u16 {n : Nat} (h : n < 65536) : (u16 n).toNat = n := by
  simp only [u16, BitVec.toNat_ofNat]
  omega

@[simp] theorem u16_toNat (v : Half) : u16 v.toNat = v := by simp [u16]

/-- R110 with quotient and remainder. -/
theorem fold16_eq (s : Nat) : fold16 s = s % 65536 + s / 65536 := by
  have h : s &&& 0xFFFF = s % 65536 := Nat.and_two_pow_sub_one_eq_mod s 16
  simp only [fold16, h, Nat.shiftRight_eq_div_pow, Nat.reducePow]

theorem toNat_finishSum {s : Nat} (h : s < 2 ^ 32) :
    (finishSum s).toNat = 65535 - fold16 (fold16 s) := by
  have hb : fold16 (fold16 s) < 65536 := by
    simp only [fold16_eq]; omega
  rw [finishSum, not16, BitVec.toNat_not, toNat_u16 hb]

theorem headerSum_le (t s : Byte) (l : Half) : headerSum t s l ≤ 0x2FCFA := by
  have h1 := (be16 t s).isLt
  have h2 := l.isLt
  simp only [headerSum, hdrSeed]
  omega

theorem payloadSum_le : ∀ p : List Byte, payloadSum p ≤ (p.length + 1) / 2 * 0xFFFF
  | [] => by simp [payloadSum]
  | [a] => by
    have := (be16 a 0).isLt
    simp only [payloadSum, List.length_cons, List.length_nil]
    omega
  | a :: b :: rest => by
    have h1 := (be16 a b).isLt
    have h2 := payloadSum_le rest
    simp only [payloadSum, List.length_cons]
    have : (rest.length + 1 + 1 + 1) / 2 = (rest.length + 1) / 2 + 1 := by omega
    rw [this]
    omega

/-- Words are summed pairwise, so an even-length prefix splits off. -/
theorem payloadSum_append : ∀ (p q : List Byte), p.length % 2 = 0 →
    payloadSum (p ++ q) = payloadSum p + payloadSum q
  | [], q, _ => by simp [payloadSum]
  | [a], q, h => by simp at h
  | a :: b :: rest, q, h => by
    have : rest.length % 2 = 0 := by simp only [List.length_cons] at h; omega
    simp [payloadSum, payloadSum_append rest q this, Nat.add_assoc]

end Sys2Proof.Machine
end

