-- ==== Sys2Proof/Laws/Memory.lean ====
section
/-! SUPPORT. Laws of the buffer spaces: a read sees the last write, writes keep the canonical form, and
two canonical contents that read alike are equal. -/

namespace Sys2Proof.Machine

@[simp] theorem Memory.read_nil (i : Nat) : Memory.read [] i = 0 := rfl

theorem Memory.read_write (m : Memory) (i j : Nat) (v : Byte) (lo : Nat)
    (h : Memory.wfFrom lo m = true) :
    (m.write i v).read j = if j = i then v else m.read j := by
  induction m generalizing lo with
  | nil =>
    simp only [Memory.write]
    split
    · rename_i hv; simp [hv, Memory.unlisted]
    · by_cases hj : j = i
      · simp [Memory.read, hj]
      · have : i ≠ j := fun e => hj e.symm
        simp [Memory.read, hj, this]
  | cons c t ih =>
    obtain ⟨k, w⟩ := c
    simp only [Memory.wfFrom, Bool.and_eq_true, decide_eq_true_eq, bne_iff_ne, ne_eq] at h
    have below : ∀ (t : Memory) (lo : Nat), Memory.wfFrom lo t = true → ∀ x < lo,
        t.read x = Memory.unlisted := by
      intro t
      induction t with
      | nil => intros; rfl
      | cons d t iht =>
        obtain ⟨k', w'⟩ := d
        intro lo hlo x hx
        simp only [Memory.wfFrom, Bool.and_eq_true, decide_eq_true_eq] at hlo
        have : k' ≠ x := by omega
        simp [Memory.read, this, iht (k' + 1) hlo.2 x (by omega)]
    have hbelow := below t (k + 1) h.2
    simp only [Memory.write]
    split
    · by_cases hv : v = Memory.unlisted
      · by_cases hj : j = i
        · subst hj
          have : k ≠ j := by omega
          simp [hv, Memory.read, this, hbelow j (by omega)]
        · simp [hv, hj]
      · by_cases hj : j = i
        · simp [hv, hj, Memory.read]
        · have : i ≠ j := fun e => hj e.symm
          simp [hv, hj, Memory.read, this]
    · split
      · rename_i hik
        subst hik
        by_cases hv : v = Memory.unlisted
        · by_cases hj : j = i
          · subst hj
            simp [hv, hbelow j (by omega)]
          · have : i ≠ j := fun e => hj e.symm
            simp [hv, hj, Memory.read, this]
        · by_cases hj : j = i
          · simp [hv, hj, Memory.read]
          · have : i ≠ j := fun e => hj e.symm
            simp [hv, hj, Memory.read, this]
      · by_cases hkj : k = j
        · have : ¬ j = i := by omega
          simp [Memory.read, hkj, this]
        · simp [Memory.read, hkj, ih (k + 1) h.2]

theorem Memory.wfFrom_mono {lo lo' : Nat} {m : Memory} (hle : lo' ≤ lo)
    (h : Memory.wfFrom lo m = true) : Memory.wfFrom lo' m = true := by
  cases m with
  | nil => rfl
  | cons c t =>
    simp only [Memory.wfFrom, Bool.and_eq_true, decide_eq_true_eq] at h ⊢
    exact ⟨⟨by omega, h.1.2⟩, h.2⟩

theorem Memory.wfFrom_write {lo : Nat} {m : Memory} {i : Nat} {v : Byte} (hi : lo ≤ i)
    (h : Memory.wfFrom lo m = true) : Memory.wfFrom lo (m.write i v) = true := by
  induction m generalizing lo with
  | nil =>
    by_cases hv : v = Memory.unlisted <;> simp [Memory.write, hv, Memory.wfFrom, hi]
  | cons c t ih =>
    obtain ⟨k, w⟩ := c
    have h0 := h
    simp only [Memory.wfFrom, Bool.and_eq_true, decide_eq_true_eq, bne_iff_ne, ne_eq] at h
    simp only [Memory.write]
    split
    · split
      · exact h0
      · simp only [Memory.wfFrom, Bool.and_eq_true, decide_eq_true_eq, bne_iff_ne, ne_eq]
        exact ⟨⟨hi, by assumption⟩, ⟨by omega, h.1.2⟩, h.2⟩
    · split
      · split
        · exact Memory.wfFrom_mono (by omega) h.2
        · simp only [Memory.wfFrom, Bool.and_eq_true, decide_eq_true_eq, bne_iff_ne, ne_eq]
          rename_i hik hv
          subst hik
          exact ⟨⟨hi, hv⟩, h.2⟩
      · simp only [Memory.wfFrom, Bool.and_eq_true, decide_eq_true_eq, bne_iff_ne, ne_eq]
        exact ⟨h.1, ih (by omega) h.2⟩

/-- A write keeps the canonical form. -/
theorem Memory.wf_write {m : Memory} {i : Nat} {v : Byte} (h : m.wf = true) :
    (m.write i v).wf = true := Memory.wfFrom_write (Nat.zero_le i) h

/-- A read after a write to the same index gives the value written. -/
theorem Memory.read_write_same {m : Memory} {i : Nat} {v : Byte} (h : m.wf = true) :
    (m.write i v).read i = v := by simp [Memory.read_write m i i v 0 h]

/-- A write leaves every other index alone. -/
theorem Memory.read_write_other {m : Memory} {i j : Nat} {v : Byte} (h : m.wf = true) (hij : j ≠ i) :
    (m.write i v).read j = m.read j := by simp [Memory.read_write m i j v 0 h, hij]

theorem Memory.below_write {m : Memory} {n i : Nat} {v : Byte} (h : m.below n = true) (hi : i < n) :
    (m.write i v).below n = true := by
  induction m with
  | nil => by_cases hv : v = Memory.unlisted <;> simp [Memory.write, hv, Memory.below, hi]
  | cons c t ih =>
    obtain ⟨k, w⟩ := c
    simp only [Memory.below, List.all_cons, Bool.and_eq_true, decide_eq_true_eq] at h ih ⊢
    obtain ⟨hk, ht⟩ := h
    simp only [Memory.write]
    split
    · split <;> simp [hk, hi, ht, -List.all_eq_true]
    · split
      · split <;> simp [hi, ht, -List.all_eq_true]
      · simp only [List.all_cons, Bool.and_eq_true, decide_eq_true_eq]
        exact ⟨hk, ih ht⟩

/-- The last byte of a run of bytes is written last. -/
theorem Memory.writeBytes_concat (m : Memory) (i : Nat) (bs : List Byte) (b : Byte) :
    m.writeBytes i (bs ++ [b]) = (m.writeBytes i bs).write (i + bs.length) b := by
  induction bs generalizing m i with
  | nil => rfl
  | cons c bs ih =>
    simp only [Memory.writeBytes, List.cons_append, List.length_cons, ih]
    congr 1
    omega

theorem Memory.wf_writeBytes {m : Memory} {i : Nat} {bs : List Byte} (h : m.wf = true) :
    (m.writeBytes i bs).wf = true := by
  induction bs generalizing m i with
  | nil => exact h
  | cons b bs ih => exact ih (Memory.wf_write h)

theorem Memory.below_writeBytes {m : Memory} {n i : Nat} {bs : List Byte} (h : m.below n = true)
    (hi : i + bs.length ≤ n) : (m.writeBytes i bs).below n = true := by
  induction bs generalizing m i with
  | nil => exact h
  | cons b bs ih =>
    simp only [List.length_cons] at hi
    exact ih (Memory.below_write h (by omega)) (by omega)

/-- After a write of several bytes: the bytes written where they were written, the old contents
elsewhere. -/
theorem Memory.read_writeBytes {m : Memory} {i j : Nat} {bs : List Byte} (h : m.wf = true) :
    (m.writeBytes i bs).read j =
      if i ≤ j ∧ j < i + bs.length then bs.getD (j - i) 0 else m.read j := by
  induction bs generalizing m i with
  | nil =>
    have : ¬ (i ≤ j ∧ j < i + ([] : List Byte).length) := by simp
    simp only [this, Memory.writeBytes, if_false]
  | cons b bs ih =>
    rw [Memory.writeBytes, ih (Memory.wf_write h)]
    by_cases hj : j = i
    · subst hj
      simp [Memory.read_write_same h]
    · by_cases hin : i + 1 ≤ j ∧ j < i + 1 + bs.length
      · have h2 : i ≤ j ∧ j < i + (b :: bs).length := by
          simp only [List.length_cons]; omega
        rw [if_pos hin, if_pos h2]
        obtain ⟨d, hd⟩ : ∃ d, j - i = d + 1 := ⟨j - i - 1, by omega⟩
        have : j - (i + 1) = d := by omega
        simp [hd, this]
      · have h2 : ¬ (i ≤ j ∧ j < i + (b :: bs).length) := by
          simp only [List.length_cons]; omega
        rw [if_neg hin, if_neg h2, Memory.read_write_other h hj]

@[simp] theorem Memory.length_readBytes (m : Memory) (i n : Nat) :
    (m.readBytes i n).length = n := by
  induction n generalizing i with
  | zero => rfl
  | succ n ih => simp [Memory.readBytes, ih]

theorem Memory.getD_readBytes {m : Memory} {i n j : Nat} (h : j < n) :
    (m.readBytes i n).getD j 0 = m.read (i + j) := by
  induction n generalizing i j with
  | zero => omega
  | succ n ih =>
    cases j with
    | zero => simp [Memory.readBytes]
    | succ j =>
      have := ih (i := i + 1) (j := j) (by omega)
      rw [Memory.readBytes, List.getD_cons_succ, this]
      congr 1; omega

theorem Memory.readBytes_congr {m m' : Memory} {i n : Nat}
    (h : ∀ j, i ≤ j → j < i + n → m.read j = m'.read j) : m.readBytes i n = m'.readBytes i n := by
  induction n generalizing i with
  | zero => rfl
  | succ n ih =>
    simp only [Memory.readBytes]
    rw [h i (by omega) (by omega), ih fun j h1 h2 => h j (by omega) (by omega)]

theorem Memory.readBytes_add (m : Memory) (i n k : Nat) :
    m.readBytes i (n + k) = m.readBytes i n ++ m.readBytes (i + n) k := by
  induction n generalizing i with
  | zero => simp [Memory.readBytes]
  | succ n ih =>
    rw [show n + 1 + k = (n + k) + 1 by omega, Memory.readBytes, ih]
    simp [Memory.readBytes, show i + 1 + n = i + (n + 1) by omega]

/-- Reading back what was written. -/
theorem Memory.readBytes_writeBytes {m : Memory} {i : Nat} {bs : List Byte} (h : m.wf = true) :
    (m.writeBytes i bs).readBytes i bs.length = bs := by
  apply List.ext_getElem
  · simp
  · intro k h1 h2
    have hk : k < bs.length := h2
    have e := Memory.getD_readBytes (m := m.writeBytes i bs) (i := i) hk
    rw [Memory.read_writeBytes h, if_pos (by omega)] at e
    simp only [Nat.add_sub_cancel_left] at e
    simpa [List.getD_eq_getElem?_getD, h1, hk] using e

/-- Equal contents are equal data. -/
theorem Memory.ext_read {m m' : Memory} (h : m.wf = true) (h' : m'.wf = true)
    (hr : ∀ i, m.read i = m'.read i) : m = m' := by
  have low : ∀ (t : Memory) (lo : Nat), Memory.wfFrom lo t = true → ∀ x < lo,
      t.read x = Memory.unlisted := by
    intro t
    induction t with
    | nil => intros; rfl
    | cons d t iht =>
      obtain ⟨k, w⟩ := d
      intro lo hlo x hx
      simp only [Memory.wfFrom, Bool.and_eq_true, decide_eq_true_eq] at hlo
      have : k ≠ x := by omega
      simp [Memory.read, this, iht (k + 1) hlo.2 x (by omega)]
  have main : ∀ (m m' : Memory) (lo lo' : Nat), Memory.wfFrom lo m = true →
      Memory.wfFrom lo' m' = true → (∀ i, m.read i = m'.read i) → m = m' := by
    intro m
    induction m with
    | nil =>
      intro m' lo lo' _ h' hr
      cases m' with
      | nil => rfl
      | cons d t =>
        obtain ⟨k, w⟩ := d
        simp only [Memory.wfFrom, Bool.and_eq_true, bne_iff_ne, ne_eq] at h'
        have := hr k
        simp [Memory.read] at this
        exact absurd this.symm h'.1.2
    | cons c t ih =>
      intro m' lo lo' h h' hr
      obtain ⟨k, w⟩ := c
      simp only [Memory.wfFrom, Bool.and_eq_true, decide_eq_true_eq, bne_iff_ne, ne_eq] at h
      cases m' with
      | nil =>
        have := hr k
        simp [Memory.read] at this
        exact absurd this h.1.2
      | cons d t' =>
        obtain ⟨k', w'⟩ := d
        simp only [Memory.wfFrom, Bool.and_eq_true, decide_eq_true_eq, bne_iff_ne, ne_eq] at h'
        have hk : k = k' := by
          by_contra hne
          rcases Nat.lt_or_gt_of_ne hne with hlt | hlt
          · have e := hr k
            have : k' ≠ k := by omega
            simp [Memory.read, this, low t' (k' + 1) h'.2 k (by omega)] at e
            exact h.1.2 e
          · have e := hr k'
            have : k ≠ k' := by omega
            simp [Memory.read, this, low t (k + 1) h.2 k' (by omega)] at e
            exact h'.1.2 e.symm
        subst hk
        have hw : w = w' := by simpa [Memory.read] using hr k
        subst hw
        congr 1
        refine ih t' (k + 1) (k + 1) h.2 h'.2 fun i => ?_
        by_cases hi : k = i
        · subst hi
          rw [low t (k + 1) h.2 k (by omega), low t' (k + 1) h'.2 k (by omega)]
        · simpa [Memory.read, hi] using hr i
  exact main m m' 0 0 h h' hr

theorem Memory.wf_copyDown {m : Memory} {src dst n : Nat} (h : m.wf = true) :
    (m.copyDown src dst n).wf = true := by
  induction n generalizing m src dst with
  | zero => exact h
  | succ n ih => exact ih (Memory.wf_write h)

theorem Memory.below_copyDown {m : Memory} {k src dst n : Nat} (h : m.below k = true)
    (hd : dst + n ≤ k) : (m.copyDown src dst n).below k = true := by
  induction n generalizing m src dst with
  | zero => exact h
  | succ n ih => exact ih (Memory.below_write h (by omega)) (by omega)

/-- R163: a move toward lower indices reads every source byte before it is overwritten. -/
theorem Memory.read_copyDown {m : Memory} {src dst n j : Nat} (h : m.wf = true) (hlt : dst < src) :
    (m.copyDown src dst n).read j = if dst ≤ j ∧ j < dst + n then m.read (src + (j - dst)) else m.read j := by
  induction n generalizing m src dst with
  | zero =>
    have : ¬ (dst ≤ j ∧ j < dst + 0) := by omega
    rw [Memory.copyDown, if_neg this]
  | succ n ih =>
    rw [Memory.copyDown, ih (Memory.wf_write h) (by omega)]
    by_cases h1 : dst + 1 ≤ j ∧ j < dst + 1 + n
    · rw [if_pos h1, if_pos (by omega), Memory.read_write_other h (by omega)]
      congr 1; omega
    · rw [if_neg h1]
      by_cases hj : j = dst
      · subst hj
        rw [Memory.read_write_same h, if_pos (by omega)]; simp
      · rw [Memory.read_write_other h hj, if_neg (by omega)]

end Sys2Proof.Machine
end

