-- ==== Sys2Proof/Laws/State.lean ====
section
/-! SUPPORT. One lemma per field per named update of the state, true by rfl. -/

namespace Sys2Proof.Machine

@[simp] theorem emit_cfg (e : Event) (s : State) :
    (emit e s).cfg = s.cfg := rfl
@[simp] theorem emit_state (e : Event) (s : State) :
    (emit e s).state = s.state := rfl
@[simp] theorem emit_headerBuf (e : Event) (s : State) :
    (emit e s).headerBuf = s.headerBuf := rfl
@[simp] theorem emit_headerFilled (e : Event) (s : State) :
    (emit e s).headerFilled = s.headerFilled := rfl
@[simp] theorem emit_targetLen (e : Event) (s : State) :
    (emit e s).targetLen = s.targetLen := rfl
@[simp] theorem emit_receivedLen (e : Event) (s : State) :
    (emit e s).receivedLen = s.receivedLen := rfl
@[simp] theorem emit_cmdType (e : Event) (s : State) :
    (emit e s).cmdType = s.cmdType := rfl
@[simp] theorem emit_cmdSubtype (e : Event) (s : State) :
    (emit e s).cmdSubtype = s.cmdSubtype := rfl
@[simp] theorem emit_cmdLength (e : Event) (s : State) :
    (emit e s).cmdLength = s.cmdLength := rfl
@[simp] theorem emit_payload (e : Event) (s : State) :
    (emit e s).payload = s.payload := rfl
@[simp] theorem emit_queue (e : Event) (s : State) :
    (emit e s).queue = s.queue := rfl
@[simp] theorem emit_dest (e : Event) (s : State) :
    (emit e s).dest = s.dest := rfl
@[simp] theorem emit_trace (e : Event) (s : State) :
    (emit e s).trace = s.trace ++ [e] := rfl
@[simp] theorem emit_txo (e : Event) (s : State) :
    (emit e s).txo = s.txo := rfl
@[simp] theorem emit_csum (e : Event) (s : State) :
    (emit e s).csum = s.csum := rfl
@[simp] theorem emit_inputs (e : Event) (s : State) :
    (emit e s).inputs = s.inputs := rfl

@[simp] theorem answerTx_cfg (r : EncResult) (s : State) :
    (answerTx r s).cfg = s.cfg := rfl
@[simp] theorem answerTx_state (r : EncResult) (s : State) :
    (answerTx r s).state = s.state := rfl
@[simp] theorem answerTx_headerBuf (r : EncResult) (s : State) :
    (answerTx r s).headerBuf = s.headerBuf := rfl
@[simp] theorem answerTx_headerFilled (r : EncResult) (s : State) :
    (answerTx r s).headerFilled = s.headerFilled := rfl
@[simp] theorem answerTx_targetLen (r : EncResult) (s : State) :
    (answerTx r s).targetLen = s.targetLen := rfl
@[simp] theorem answerTx_receivedLen (r : EncResult) (s : State) :
    (answerTx r s).receivedLen = s.receivedLen := rfl
@[simp] theorem answerTx_cmdType (r : EncResult) (s : State) :
    (answerTx r s).cmdType = s.cmdType := rfl
@[simp] theorem answerTx_cmdSubtype (r : EncResult) (s : State) :
    (answerTx r s).cmdSubtype = s.cmdSubtype := rfl
@[simp] theorem answerTx_cmdLength (r : EncResult) (s : State) :
    (answerTx r s).cmdLength = s.cmdLength := rfl
@[simp] theorem answerTx_payload (r : EncResult) (s : State) :
    (answerTx r s).payload = s.payload := rfl
@[simp] theorem answerTx_queue (r : EncResult) (s : State) :
    (answerTx r s).queue = s.queue := rfl
@[simp] theorem answerTx_dest (r : EncResult) (s : State) :
    (answerTx r s).dest = s.dest := rfl
@[simp] theorem answerTx_trace (r : EncResult) (s : State) :
    (answerTx r s).trace = s.trace := rfl
@[simp] theorem answerTx_txo (r : EncResult) (s : State) :
    (answerTx r s).txo = s.txo ++ [r] := rfl
@[simp] theorem answerTx_csum (r : EncResult) (s : State) :
    (answerTx r s).csum = s.csum := rfl
@[simp] theorem answerTx_inputs (r : EncResult) (s : State) :
    (answerTx r s).inputs = s.inputs := rfl

@[simp] theorem answerCs_cfg (v : Half) (s : State) :
    (answerCs v s).cfg = s.cfg := rfl
@[simp] theorem answerCs_state (v : Half) (s : State) :
    (answerCs v s).state = s.state := rfl
@[simp] theorem answerCs_headerBuf (v : Half) (s : State) :
    (answerCs v s).headerBuf = s.headerBuf := rfl
@[simp] theorem answerCs_headerFilled (v : Half) (s : State) :
    (answerCs v s).headerFilled = s.headerFilled := rfl
@[simp] theorem answerCs_targetLen (v : Half) (s : State) :
    (answerCs v s).targetLen = s.targetLen := rfl
@[simp] theorem answerCs_receivedLen (v : Half) (s : State) :
    (answerCs v s).receivedLen = s.receivedLen := rfl
@[simp] theorem answerCs_cmdType (v : Half) (s : State) :
    (answerCs v s).cmdType = s.cmdType := rfl
@[simp] theorem answerCs_cmdSubtype (v : Half) (s : State) :
    (answerCs v s).cmdSubtype = s.cmdSubtype := rfl
@[simp] theorem answerCs_cmdLength (v : Half) (s : State) :
    (answerCs v s).cmdLength = s.cmdLength := rfl
@[simp] theorem answerCs_payload (v : Half) (s : State) :
    (answerCs v s).payload = s.payload := rfl
@[simp] theorem answerCs_queue (v : Half) (s : State) :
    (answerCs v s).queue = s.queue := rfl
@[simp] theorem answerCs_dest (v : Half) (s : State) :
    (answerCs v s).dest = s.dest := rfl
@[simp] theorem answerCs_trace (v : Half) (s : State) :
    (answerCs v s).trace = s.trace := rfl
@[simp] theorem answerCs_txo (v : Half) (s : State) :
    (answerCs v s).txo = s.txo := rfl
@[simp] theorem answerCs_csum (v : Half) (s : State) :
    (answerCs v s).csum = s.csum ++ [v] := rfl
@[simp] theorem answerCs_inputs (v : Half) (s : State) :
    (answerCs v s).inputs = s.inputs := rfl

@[simp] theorem clearFrame_cfg (s : State) :
    (clearFrame s).cfg = s.cfg := rfl
@[simp] theorem clearFrame_state (s : State) :
    (clearFrame s).state = s.state := rfl
@[simp] theorem clearFrame_headerBuf (s : State) :
    (clearFrame s).headerBuf = s.headerBuf := rfl
@[simp] theorem clearFrame_headerFilled (s : State) :
    (clearFrame s).headerFilled = s.headerFilled := rfl
@[simp] theorem clearFrame_targetLen (s : State) :
    (clearFrame s).targetLen = 0 := rfl
@[simp] theorem clearFrame_receivedLen (s : State) :
    (clearFrame s).receivedLen = 0 := rfl
@[simp] theorem clearFrame_cmdType (s : State) :
    (clearFrame s).cmdType = 0 := rfl
@[simp] theorem clearFrame_cmdSubtype (s : State) :
    (clearFrame s).cmdSubtype = 0 := rfl
@[simp] theorem clearFrame_cmdLength (s : State) :
    (clearFrame s).cmdLength = 0 := rfl
@[simp] theorem clearFrame_payload (s : State) :
    (clearFrame s).payload = s.payload := rfl
@[simp] theorem clearFrame_queue (s : State) :
    (clearFrame s).queue = s.queue := rfl
@[simp] theorem clearFrame_dest (s : State) :
    (clearFrame s).dest = s.dest := rfl
@[simp] theorem clearFrame_trace (s : State) :
    (clearFrame s).trace = s.trace := rfl
@[simp] theorem clearFrame_txo (s : State) :
    (clearFrame s).txo = s.txo := rfl
@[simp] theorem clearFrame_csum (s : State) :
    (clearFrame s).csum = s.csum := rfl
@[simp] theorem clearFrame_inputs (s : State) :
    (clearFrame s).inputs = s.inputs := rfl

@[simp] theorem enter_cfg (st : RxState) (n : Nat) (s : State) :
    (enter st n s).cfg = s.cfg := rfl
@[simp] theorem enter_state (st : RxState) (n : Nat) (s : State) :
    (enter st n s).state = st := rfl
@[simp] theorem enter_headerBuf (st : RxState) (n : Nat) (s : State) :
    (enter st n s).headerBuf = s.headerBuf := rfl
@[simp] theorem enter_headerFilled (st : RxState) (n : Nat) (s : State) :
    (enter st n s).headerFilled = u16 n := rfl
@[simp] theorem enter_targetLen (st : RxState) (n : Nat) (s : State) :
    (enter st n s).targetLen = s.targetLen := rfl
@[simp] theorem enter_receivedLen (st : RxState) (n : Nat) (s : State) :
    (enter st n s).receivedLen = s.receivedLen := rfl
@[simp] theorem enter_cmdType (st : RxState) (n : Nat) (s : State) :
    (enter st n s).cmdType = s.cmdType := rfl
@[simp] theorem enter_cmdSubtype (st : RxState) (n : Nat) (s : State) :
    (enter st n s).cmdSubtype = s.cmdSubtype := rfl
@[simp] theorem enter_cmdLength (st : RxState) (n : Nat) (s : State) :
    (enter st n s).cmdLength = s.cmdLength := rfl
@[simp] theorem enter_payload (st : RxState) (n : Nat) (s : State) :
    (enter st n s).payload = s.payload := rfl
@[simp] theorem enter_queue (st : RxState) (n : Nat) (s : State) :
    (enter st n s).queue = s.queue := rfl
@[simp] theorem enter_dest (st : RxState) (n : Nat) (s : State) :
    (enter st n s).dest = s.dest := rfl
@[simp] theorem enter_trace (st : RxState) (n : Nat) (s : State) :
    (enter st n s).trace = s.trace := rfl
@[simp] theorem enter_txo (st : RxState) (n : Nat) (s : State) :
    (enter st n s).txo = s.txo := rfl
@[simp] theorem enter_csum (st : RxState) (n : Nat) (s : State) :
    (enter st n s).csum = s.csum := rfl
@[simp] theorem enter_inputs (st : RxState) (n : Nat) (s : State) :
    (enter st n s).inputs = s.inputs := rfl

@[simp] theorem resetParser_cfg (s : State) :
    (resetParser s).cfg = s.cfg := rfl
@[simp] theorem resetParser_state (s : State) :
    (resetParser s).state = .searchFlag := rfl
@[simp] theorem resetParser_headerBuf (s : State) :
    (resetParser s).headerBuf = s.headerBuf := rfl
@[simp] theorem resetParser_headerFilled (s : State) :
    (resetParser s).headerFilled = 0 := rfl
@[simp] theorem resetParser_targetLen (s : State) :
    (resetParser s).targetLen = 0 := rfl
@[simp] theorem resetParser_receivedLen (s : State) :
    (resetParser s).receivedLen = 0 := rfl
@[simp] theorem resetParser_cmdType (s : State) :
    (resetParser s).cmdType = 0 := rfl
@[simp] theorem resetParser_cmdSubtype (s : State) :
    (resetParser s).cmdSubtype = 0 := rfl
@[simp] theorem resetParser_cmdLength (s : State) :
    (resetParser s).cmdLength = 0 := rfl
@[simp] theorem resetParser_payload (s : State) :
    (resetParser s).payload = s.payload := rfl
@[simp] theorem resetParser_queue (s : State) :
    (resetParser s).queue = s.queue := rfl
@[simp] theorem resetParser_dest (s : State) :
    (resetParser s).dest = s.dest := rfl
@[simp] theorem resetParser_trace (s : State) :
    (resetParser s).trace = s.trace := rfl
@[simp] theorem resetParser_txo (s : State) :
    (resetParser s).txo = s.txo := rfl
@[simp] theorem resetParser_csum (s : State) :
    (resetParser s).csum = s.csum := rfl
@[simp] theorem resetParser_inputs (s : State) :
    (resetParser s).inputs = s.inputs := rfl

@[simp] theorem takeCommand_cfg (s : State) :
    (takeCommand s).cfg = s.cfg := rfl
@[simp] theorem takeCommand_state (s : State) :
    (takeCommand s).state = s.state := rfl
@[simp] theorem takeCommand_headerBuf (s : State) :
    (takeCommand s).headerBuf = s.headerBuf := rfl
@[simp] theorem takeCommand_headerFilled (s : State) :
    (takeCommand s).headerFilled = s.headerFilled := rfl
@[simp] theorem takeCommand_targetLen (s : State) :
    (takeCommand s).targetLen = s.targetLen := rfl
@[simp] theorem takeCommand_receivedLen (s : State) :
    (takeCommand s).receivedLen = s.receivedLen := rfl
@[simp] theorem takeCommand_cmdType (s : State) :
    (takeCommand s).cmdType = hb s 4 := rfl
@[simp] theorem takeCommand_cmdSubtype (s : State) :
    (takeCommand s).cmdSubtype = hb s 5 := rfl
@[simp] theorem takeCommand_cmdLength (s : State) :
    (takeCommand s).cmdLength = windowLength s := rfl
@[simp] theorem takeCommand_payload (s : State) :
    (takeCommand s).payload = s.payload := rfl
@[simp] theorem takeCommand_queue (s : State) :
    (takeCommand s).queue = s.queue := rfl
@[simp] theorem takeCommand_dest (s : State) :
    (takeCommand s).dest = s.dest := rfl
@[simp] theorem takeCommand_trace (s : State) :
    (takeCommand s).trace = s.trace := rfl
@[simp] theorem takeCommand_txo (s : State) :
    (takeCommand s).txo = s.txo := rfl
@[simp] theorem takeCommand_csum (s : State) :
    (takeCommand s).csum = s.csum := rfl
@[simp] theorem takeCommand_inputs (s : State) :
    (takeCommand s).inputs = s.inputs := rfl

@[simp] theorem enterData_cfg (s : State) :
    (enterData s).cfg = s.cfg := rfl
@[simp] theorem enterData_state (s : State) :
    (enterData s).state = .collectData := rfl
@[simp] theorem enterData_headerBuf (s : State) :
    (enterData s).headerBuf = s.headerBuf := rfl
@[simp] theorem enterData_headerFilled (s : State) :
    (enterData s).headerFilled = s.headerFilled := rfl
@[simp] theorem enterData_targetLen (s : State) :
    (enterData s).targetLen = windowLength s := rfl
@[simp] theorem enterData_receivedLen (s : State) :
    (enterData s).receivedLen = 0 := rfl
@[simp] theorem enterData_cmdType (s : State) :
    (enterData s).cmdType = s.cmdType := rfl
@[simp] theorem enterData_cmdSubtype (s : State) :
    (enterData s).cmdSubtype = s.cmdSubtype := rfl
@[simp] theorem enterData_cmdLength (s : State) :
    (enterData s).cmdLength = s.cmdLength := rfl
@[simp] theorem enterData_payload (s : State) :
    (enterData s).payload = s.payload := rfl
@[simp] theorem enterData_queue (s : State) :
    (enterData s).queue = s.queue := rfl
@[simp] theorem enterData_dest (s : State) :
    (enterData s).dest = s.dest := rfl
@[simp] theorem enterData_trace (s : State) :
    (enterData s).trace = s.trace := rfl
@[simp] theorem enterData_txo (s : State) :
    (enterData s).txo = s.txo := rfl
@[simp] theorem enterData_csum (s : State) :
    (enterData s).csum = s.csum := rfl
@[simp] theorem enterData_inputs (s : State) :
    (enterData s).inputs = s.inputs := rfl

@[simp] theorem setQueue_cfg (q : List Byte) (s : State) :
    (setQueue q s).cfg = s.cfg := rfl
@[simp] theorem setQueue_state (q : List Byte) (s : State) :
    (setQueue q s).state = s.state := rfl
@[simp] theorem setQueue_headerBuf (q : List Byte) (s : State) :
    (setQueue q s).headerBuf = s.headerBuf := rfl
@[simp] theorem setQueue_headerFilled (q : List Byte) (s : State) :
    (setQueue q s).headerFilled = s.headerFilled := rfl
@[simp] theorem setQueue_targetLen (q : List Byte) (s : State) :
    (setQueue q s).targetLen = s.targetLen := rfl
@[simp] theorem setQueue_receivedLen (q : List Byte) (s : State) :
    (setQueue q s).receivedLen = s.receivedLen := rfl
@[simp] theorem setQueue_cmdType (q : List Byte) (s : State) :
    (setQueue q s).cmdType = s.cmdType := rfl
@[simp] theorem setQueue_cmdSubtype (q : List Byte) (s : State) :
    (setQueue q s).cmdSubtype = s.cmdSubtype := rfl
@[simp] theorem setQueue_cmdLength (q : List Byte) (s : State) :
    (setQueue q s).cmdLength = s.cmdLength := rfl
@[simp] theorem setQueue_payload (q : List Byte) (s : State) :
    (setQueue q s).payload = s.payload := rfl
@[simp] theorem setQueue_queue (q : List Byte) (s : State) :
    (setQueue q s).queue = q := rfl
@[simp] theorem setQueue_dest (q : List Byte) (s : State) :
    (setQueue q s).dest = s.dest := rfl
@[simp] theorem setQueue_trace (q : List Byte) (s : State) :
    (setQueue q s).trace = s.trace := rfl
@[simp] theorem setQueue_txo (q : List Byte) (s : State) :
    (setQueue q s).txo = s.txo := rfl
@[simp] theorem setQueue_csum (q : List Byte) (s : State) :
    (setQueue q s).csum = s.csum := rfl
@[simp] theorem setQueue_inputs (q : List Byte) (s : State) :
    (setQueue q s).inputs = s.inputs := rfl

@[simp] theorem countMagic_cfg (s : State) :
    (countMagic s).cfg = s.cfg := rfl
@[simp] theorem countMagic_state (s : State) :
    (countMagic s).state = s.state := rfl
@[simp] theorem countMagic_headerBuf (s : State) :
    (countMagic s).headerBuf = s.headerBuf := rfl
@[simp] theorem countMagic_headerFilled (s : State) :
    (countMagic s).headerFilled = u16 (s.headerFilled.toNat + 1) := rfl
@[simp] theorem countMagic_targetLen (s : State) :
    (countMagic s).targetLen = s.targetLen := rfl
@[simp] theorem countMagic_receivedLen (s : State) :
    (countMagic s).receivedLen = s.receivedLen := rfl
@[simp] theorem countMagic_cmdType (s : State) :
    (countMagic s).cmdType = s.cmdType := rfl
@[simp] theorem countMagic_cmdSubtype (s : State) :
    (countMagic s).cmdSubtype = s.cmdSubtype := rfl
@[simp] theorem countMagic_cmdLength (s : State) :
    (countMagic s).cmdLength = s.cmdLength := rfl
@[simp] theorem countMagic_payload (s : State) :
    (countMagic s).payload = s.payload := rfl
@[simp] theorem countMagic_queue (s : State) :
    (countMagic s).queue = s.queue := rfl
@[simp] theorem countMagic_dest (s : State) :
    (countMagic s).dest = s.dest := rfl
@[simp] theorem countMagic_trace (s : State) :
    (countMagic s).trace = s.trace := rfl
@[simp] theorem countMagic_txo (s : State) :
    (countMagic s).txo = s.txo := rfl
@[simp] theorem countMagic_csum (s : State) :
    (countMagic s).csum = s.csum := rfl
@[simp] theorem countMagic_inputs (s : State) :
    (countMagic s).inputs = s.inputs := rfl

@[simp] theorem primeHeader_cfg (s : State) :
    (primeHeader s).cfg = s.cfg := rfl
@[simp] theorem primeHeader_state (s : State) :
    (primeHeader s).state = .collectHeader := rfl
@[simp] theorem primeHeader_headerBuf (s : State) :
    (primeHeader s).headerBuf = s.headerBuf.writeBytes 0 [magic, magic, magic, magic] := rfl
@[simp] theorem primeHeader_headerFilled (s : State) :
    (primeHeader s).headerFilled = 4 := rfl
@[simp] theorem primeHeader_targetLen (s : State) :
    (primeHeader s).targetLen = s.targetLen := rfl
@[simp] theorem primeHeader_receivedLen (s : State) :
    (primeHeader s).receivedLen = s.receivedLen := rfl
@[simp] theorem primeHeader_cmdType (s : State) :
    (primeHeader s).cmdType = s.cmdType := rfl
@[simp] theorem primeHeader_cmdSubtype (s : State) :
    (primeHeader s).cmdSubtype = s.cmdSubtype := rfl
@[simp] theorem primeHeader_cmdLength (s : State) :
    (primeHeader s).cmdLength = s.cmdLength := rfl
@[simp] theorem primeHeader_payload (s : State) :
    (primeHeader s).payload = s.payload := rfl
@[simp] theorem primeHeader_queue (s : State) :
    (primeHeader s).queue = s.queue := rfl
@[simp] theorem primeHeader_dest (s : State) :
    (primeHeader s).dest = s.dest := rfl
@[simp] theorem primeHeader_trace (s : State) :
    (primeHeader s).trace = s.trace := rfl
@[simp] theorem primeHeader_txo (s : State) :
    (primeHeader s).txo = s.txo := rfl
@[simp] theorem primeHeader_csum (s : State) :
    (primeHeader s).csum = s.csum := rfl
@[simp] theorem primeHeader_inputs (s : State) :
    (primeHeader s).inputs = s.inputs := rfl

@[simp] theorem storeHeader_cfg (c : Byte) (s : State) :
    (storeHeader c s).cfg = s.cfg := rfl
@[simp] theorem storeHeader_state (c : Byte) (s : State) :
    (storeHeader c s).state = s.state := rfl
@[simp] theorem storeHeader_headerBuf (c : Byte) (s : State) :
    (storeHeader c s).headerBuf = s.headerBuf.write s.headerFilled.toNat c := rfl
@[simp] theorem storeHeader_headerFilled (c : Byte) (s : State) :
    (storeHeader c s).headerFilled = u16 (s.headerFilled.toNat + 1) := rfl
@[simp] theorem storeHeader_targetLen (c : Byte) (s : State) :
    (storeHeader c s).targetLen = s.targetLen := rfl
@[simp] theorem storeHeader_receivedLen (c : Byte) (s : State) :
    (storeHeader c s).receivedLen = s.receivedLen := rfl
@[simp] theorem storeHeader_cmdType (c : Byte) (s : State) :
    (storeHeader c s).cmdType = s.cmdType := rfl
@[simp] theorem storeHeader_cmdSubtype (c : Byte) (s : State) :
    (storeHeader c s).cmdSubtype = s.cmdSubtype := rfl
@[simp] theorem storeHeader_cmdLength (c : Byte) (s : State) :
    (storeHeader c s).cmdLength = s.cmdLength := rfl
@[simp] theorem storeHeader_payload (c : Byte) (s : State) :
    (storeHeader c s).payload = s.payload := rfl
@[simp] theorem storeHeader_queue (c : Byte) (s : State) :
    (storeHeader c s).queue = s.queue := rfl
@[simp] theorem storeHeader_dest (c : Byte) (s : State) :
    (storeHeader c s).dest = s.dest := rfl
@[simp] theorem storeHeader_trace (c : Byte) (s : State) :
    (storeHeader c s).trace = s.trace := rfl
@[simp] theorem storeHeader_txo (c : Byte) (s : State) :
    (storeHeader c s).txo = s.txo := rfl
@[simp] theorem storeHeader_csum (c : Byte) (s : State) :
    (storeHeader c s).csum = s.csum := rfl
@[simp] theorem storeHeader_inputs (c : Byte) (s : State) :
    (storeHeader c s).inputs = s.inputs := rfl

@[simp] theorem storePayload_cfg (c : Byte) (s : State) :
    (storePayload c s).cfg = s.cfg := rfl
@[simp] theorem storePayload_state (c : Byte) (s : State) :
    (storePayload c s).state = s.state := rfl
@[simp] theorem storePayload_headerBuf (c : Byte) (s : State) :
    (storePayload c s).headerBuf = s.headerBuf := rfl
@[simp] theorem storePayload_headerFilled (c : Byte) (s : State) :
    (storePayload c s).headerFilled = s.headerFilled := rfl
@[simp] theorem storePayload_targetLen (c : Byte) (s : State) :
    (storePayload c s).targetLen = s.targetLen := rfl
@[simp] theorem storePayload_receivedLen (c : Byte) (s : State) :
    (storePayload c s).receivedLen = u16 (s.receivedLen.toNat + 1) := rfl
@[simp] theorem storePayload_cmdType (c : Byte) (s : State) :
    (storePayload c s).cmdType = s.cmdType := rfl
@[simp] theorem storePayload_cmdSubtype (c : Byte) (s : State) :
    (storePayload c s).cmdSubtype = s.cmdSubtype := rfl
@[simp] theorem storePayload_cmdLength (c : Byte) (s : State) :
    (storePayload c s).cmdLength = s.cmdLength := rfl
@[simp] theorem storePayload_payload (c : Byte) (s : State) :
    (storePayload c s).payload = s.payload.write s.receivedLen.toNat c := rfl
@[simp] theorem storePayload_queue (c : Byte) (s : State) :
    (storePayload c s).queue = s.queue := rfl
@[simp] theorem storePayload_dest (c : Byte) (s : State) :
    (storePayload c s).dest = s.dest := rfl
@[simp] theorem storePayload_trace (c : Byte) (s : State) :
    (storePayload c s).trace = s.trace := rfl
@[simp] theorem storePayload_txo (c : Byte) (s : State) :
    (storePayload c s).txo = s.txo := rfl
@[simp] theorem storePayload_csum (c : Byte) (s : State) :
    (storePayload c s).csum = s.csum := rfl
@[simp] theorem storePayload_inputs (c : Byte) (s : State) :
    (storePayload c s).inputs = s.inputs := rfl

@[simp] theorem offerInput_cfg (x : Stimulus) (s : State) :
    (offerInput x s).cfg = s.cfg := rfl
@[simp] theorem offerInput_state (x : Stimulus) (s : State) :
    (offerInput x s).state = s.state := rfl
@[simp] theorem offerInput_headerBuf (x : Stimulus) (s : State) :
    (offerInput x s).headerBuf = s.headerBuf := rfl
@[simp] theorem offerInput_headerFilled (x : Stimulus) (s : State) :
    (offerInput x s).headerFilled = s.headerFilled := rfl
@[simp] theorem offerInput_targetLen (x : Stimulus) (s : State) :
    (offerInput x s).targetLen = s.targetLen := rfl
@[simp] theorem offerInput_receivedLen (x : Stimulus) (s : State) :
    (offerInput x s).receivedLen = s.receivedLen := rfl
@[simp] theorem offerInput_cmdType (x : Stimulus) (s : State) :
    (offerInput x s).cmdType = s.cmdType := rfl
@[simp] theorem offerInput_cmdSubtype (x : Stimulus) (s : State) :
    (offerInput x s).cmdSubtype = s.cmdSubtype := rfl
@[simp] theorem offerInput_cmdLength (x : Stimulus) (s : State) :
    (offerInput x s).cmdLength = s.cmdLength := rfl
@[simp] theorem offerInput_payload (x : Stimulus) (s : State) :
    (offerInput x s).payload = s.payload := rfl
@[simp] theorem offerInput_queue (x : Stimulus) (s : State) :
    (offerInput x s).queue = s.queue := rfl
@[simp] theorem offerInput_dest (x : Stimulus) (s : State) :
    (offerInput x s).dest = s.dest := rfl
@[simp] theorem offerInput_trace (x : Stimulus) (s : State) :
    (offerInput x s).trace = s.trace := rfl
@[simp] theorem offerInput_txo (x : Stimulus) (s : State) :
    (offerInput x s).txo = s.txo := rfl
@[simp] theorem offerInput_csum (x : Stimulus) (s : State) :
    (offerInput x s).csum = s.csum := rfl
@[simp] theorem offerInput_inputs (x : Stimulus) (s : State) :
    (offerInput x s).inputs = x :: s.inputs := rfl

end Sys2Proof.Machine
end

