-- ==== Sys2Proof/Laws/Decoder.lean ====
section
/-! SUPPORT. What the decoder's operations can do: the shared operations once each, then one byte of the
loop of R130, then the loop. -/

namespace Sys2Proof.Machine

@[simp] theorem andThen_next (s : State) (f : State → Result) : andThen (.next s) f = f s := rfl

@[simp] theorem andThen_fault (e : Fault) (f : State → Result) : andThen (.fault e) f = .fault e := rfl

@[simp] theorem andThen_refused (e : Refusal) (f : State → Result) :
    andThen (.refused e) f = .refused e := rfl

theorem andThen_eq_next {r : Result} {f : State → Result} {t : State} :
    andThen r f = .next t ↔ ∃ s, r = .next s ∧ f s = .next t := by
  cases r <;> simp [andThen]

theorem andThen_assoc (r : Result) (f g : State → Result) :
    andThen (andThen r f) g = andThen r fun s => andThen (f s) g := by
  cases r <;> rfl

theorem withPayload_of_le {n : Nat} {s : State} {r : Result} (h : n ≤ s.cfg.payloadCap) :
    withPayload n s r = r := if_pos h

theorem withPayload_eq_next {n : Nat} {s t : State} {r : Result} :
    withPayload n s r = .next t ↔ n ≤ s.cfg.payloadCap ∧ r = .next t := by
  unfold withPayload
  split <;> simp [*]

/-- `DISPATCH` answers next exactly when the payload lies in the buffer, and only emits. -/
theorem dispatchCommand_eq_next {s t : State} : dispatchCommand s = .next t ↔
    s.cmdLength.toNat ≤ s.cfg.payloadCap ∧
    t = emit (.dispatch s.cmdType s.cmdSubtype s.cmdLength (pl s s.cmdLength.toNat)) s := by
  rw [dispatchCommand, withPayload_eq_next]
  simp [eq_comm]

/-! ### RESYNC -/

theorem resyncScan_some {m : Memory} {i : Nat} (h : resyncScan m = some i) :
    4 ≤ i ∧ i ≤ 9 ∧ runEndsAt m i = true := by
  have h1 := List.mem_of_find?_eq_some h
  have h2 := List.find?_some h
  simp only [List.mem_cons, List.not_mem_nil, or_false] at h1
  exact ⟨by omega, by omega, h2⟩

theorem resyncScan_none {m : Memory} (h : resyncScan m = none) :
    ∀ i, 4 ≤ i → i ≤ 9 → runEndsAt m i = false := by
  intro i h4 h9
  have := List.find?_eq_none.1 h i
    (by simp only [List.mem_cons, List.not_mem_nil, or_false]; omega)
  simpa using this

theorem tailRun_bounds (m : Memory) (rounds t : Nat) :
    t ≤ tailRun m rounds t ∧ tailRun m rounds t ≤ t + rounds := by
  induction rounds generalizing t with
  | zero => simp [tailRun]
  | succ n ih =>
    rw [tailRun]
    split
    · have := ih (t + 1); omega
    · omega

/-- R164: without a run of four the tail count is 1, 2 or 3. -/
theorem tailRun_le_three {m : Memory} (h : resyncScan m = none) (h9 : m.read 9 = magic) :
    tailRun m 9 1 ≤ 3 := by
  have h := resyncScan_none h 9 (by omega) (by omega)
  by_cases h8 : m.read 8 = magic
  · by_cases h7 : m.read 7 = magic
    · have h6 : ¬ m.read 6 = magic := by
        intro h6
        simp [runEndsAt, h9, h8, h7, h6] at h
      simp [tailRun, h8, h7, h6]
    · simp [tailRun, h8, h7]
  · simp [tailRun, h8]

/-- R160: the three outcomes. -/
theorem resync_cases (s : State) :
    (∃ i, resyncScan s.headerBuf = some i ∧ resync s = resyncShift i s) ∨
    (resyncScan s.headerBuf = none ∧ hb s 9 = magic ∧ resync s = resyncTail s) ∨
    (resyncScan s.headerBuf = none ∧ hb s 9 ≠ magic ∧ resync s = resetParser s) := by
  unfold resync
  cases h : resyncScan s.headerBuf with
  | some i => exact .inl ⟨i, rfl, rfl⟩
  | none =>
    by_cases h9 : hb s 9 = magic
    · exact .inr (.inl ⟨rfl, h9, by simp [h9]⟩)
    · exact .inr (.inr ⟨rfl, h9, by simp [h9]⟩)

/-- R160: what every outcome leaves alone, and that the decoder holds at most ten bytes afterwards. -/
theorem resync_frame (s : State) :
    (resync s).cfg = s.cfg ∧ (resync s).payload = s.payload ∧ (resync s).queue = s.queue ∧
    (resync s).dest = s.dest ∧ (resync s).trace = s.trace ∧ (resync s).txo = s.txo ∧
    (resync s).csum = s.csum ∧ (resync s).inputs = s.inputs ∧
    (resync s).state ≠ .collectData ∧ (resync s).headerFilled.toNat ≤ 10 := by
  rcases resync_cases s with ⟨i, hi, h⟩ | ⟨hn, h9, h⟩ | ⟨hn, h9, h⟩ <;> rw [h]
  · obtain ⟨h4, h9, -⟩ := resyncScan_some hi
    refine ⟨rfl, rfl, rfl, rfl, rfl, rfl, rfl, rfl, by simp [resyncShift], ?_⟩
    show (u16 (13 - i)).toNat ≤ 10
    rw [toNat_u16 (by omega)]; omega
  · refine ⟨rfl, rfl, rfl, rfl, rfl, rfl, rfl, rfl, by simp [resyncTail], ?_⟩
    show (u16 (tailRun s.headerBuf 9 1)).toNat ≤ 10
    have := tailRun_bounds s.headerBuf 9 1
    rw [toNat_u16 (by omega)]; omega
  · exact ⟨rfl, rfl, rfl, rfl, rfl, rfl, rfl, rfl, by simp, by simp⟩

theorem firstMagic_le (bs : List Byte) : firstMagic bs ≤ bs.length := by
  induction bs with
  | nil => simp [firstMagic]
  | cons b bs ih => simp only [firstMagic, List.length_cons]; split <;> omega

/-! ### One byte -/

/-- What a byte leaves alone: the parameters, the encoder's side and the inputs. -/
def SameOuter (s t : State) : Prop :=
  t.cfg = s.cfg ∧ t.dest = s.dest ∧ t.txo = s.txo ∧ t.csum = s.csum ∧ t.inputs = s.inputs

theorem SameOuter.trans {s t u : State} (h : SameOuter s t) (h' : SameOuter t u) : SameOuter s u := by
  obtain ⟨h1, h2, h3, h4, h5⟩ := h
  obtain ⟨g1, g2, g3, g4, g5⟩ := h'
  exact ⟨g1.trans h1, g2.trans h2, g3.trans h3, g4.trans h4, g5.trans h5⟩

/-- R133: the four outcomes of `HDRCHK` when it answers next. -/
theorem hdrchk_cases {s t : State} (h : hdrchk s = .next t) :
    (hdrOk s = false ∧
      t = resync (emit (.hdrCrc (windowComputed s) (windowReceived s)) s)) ∨
    (hdrOk s = true ∧ windowLength s = 0 ∧
      t = resetParser (emit (.dispatch (hb s 4) (hb s 5) 0 []) (takeCommand s))) ∨
    (hdrOk s = true ∧ windowLength s ≠ 0 ∧ lengthAccepted s.cfg (windowLength s) = true ∧
      t = enterData (takeCommand s)) ∨
    (hdrOk s = true ∧ windowLength s ≠ 0 ∧ lengthAccepted s.cfg (windowLength s) = false ∧
      t = resync (emit (.len (windowLength s)) (takeCommand s))) := by
  unfold hdrchk at h
  split at h
  · rename_i hok
    split at h
    · rename_i h0
      obtain ⟨s1, h1, h2⟩ := andThen_eq_next.1 h
      obtain ⟨-, rfl⟩ := dispatchCommand_eq_next.1 h1
      refine .inr (.inl ⟨hok, h0, ?_⟩)
      simp only [Host.Outcome.next.injEq] at h2
      rw [← h2]
      simp [h0, pl, Memory.readBytes]
    · rename_i h0
      split at h
      · rename_i ha
        exact .inr (.inr (.inl ⟨hok, h0, ha, by simpa using h.symm⟩))
      · rename_i ha
        exact .inr (.inr (.inr ⟨hok, h0, by simpa using ha, by simpa [raiseCondition] using h.symm⟩))
  · rename_i hok
    exact .inl ⟨by simpa using hok, by simpa [raiseCondition] using h.symm⟩

/-- R133: `HDRCHK` always answers next. -/
theorem hdrchk_total (s : State) : ∃ t, hdrchk s = .next t := by
  unfold hdrchk
  split
  · split
    · rename_i h0
      refine ⟨_, andThen_eq_next.2 ⟨_, dispatchCommand_eq_next.2 ⟨?_, rfl⟩, rfl⟩⟩
      simp [h0]
    · split
      · exact ⟨_, rfl⟩
      · exact ⟨_, rfl⟩
  · exact ⟨_, rfl⟩

/-- R166: the state `PAYRESCAN` leaves. -/
def rescanned (s : State) : State :=
  replayFrom (buffered s)
    (emit (.payCrc (payloadComputed s) (payloadReceived s) (firstMagic (buffered s))) s)

/-- R135: the three outcomes of `PAYCHK` when it answers next. -/
theorem paychk_cases {s t : State} (h : paychk s = .next t) :
    s.targetLen.toNat + 2 ≤ s.cfg.payloadCap ∧
    ((payOk s = true ∧ s.cmdLength.toNat ≤ s.cfg.payloadCap ∧
        t = resetParser
          (emit (.dispatch s.cmdType s.cmdSubtype s.cmdLength (pl s s.cmdLength.toNat)) s)) ∨
      (payOk s = false ∧ isMemdump s = true ∧ t = resetParser s) ∨
      (payOk s = false ∧ isMemdump s = false ∧ t = rescanned s)) := by
  obtain ⟨hcap, h⟩ := withPayload_eq_next.1 h
  refine ⟨hcap, ?_⟩
  split at h
  · rename_i hok
    obtain ⟨s1, h1, h2⟩ := andThen_eq_next.1 h
    obtain ⟨hl, rfl⟩ := dispatchCommand_eq_next.1 h1
    exact .inl ⟨hok, hl, by simpa using h2.symm⟩
  · rename_i hok
    split at h
    · rename_i hm
      exact .inr (.inl ⟨by simpa using hok, hm, by simpa using h.symm⟩)
    · rename_i hm
      obtain ⟨-, h⟩ := withPayload_eq_next.1 h
      exact .inr (.inr ⟨by simpa using hok, by simpa using hm, by simpa [raiseCondition, rescanned] using h.symm⟩)

/-- R135: `PAYCHK` answers next when the frame fits the buffer. -/
theorem paychk_total {s : State} (h : s.targetLen.toNat + 2 ≤ s.cfg.payloadCap)
    (hl : s.cmdLength.toNat ≤ s.cfg.payloadCap) : ∃ t, paychk s = .next t := by
  unfold paychk
  rw [withPayload_of_le h]
  split
  · exact ⟨_, andThen_eq_next.2 ⟨_, dispatchCommand_eq_next.2 ⟨hl, rfl⟩, rfl⟩⟩
  · split
    · exact ⟨_, rfl⟩
    · exact ⟨_, by rw [payrescan, withPayload_of_le h]⟩

/-- R132: one byte in CollectHeader. -/
theorem headerArm_cases {c : Byte} {s t : State} (h : headerArm c s = .next t) :
    s.headerFilled.toNat < 10 ∧
    ((s.headerFilled.toNat + 1 ≠ 10 ∧ t = storeHeader c s) ∨
      (s.headerFilled.toNat + 1 = 10 ∧ hdrchk (storeHeader c s) = .next t)) := by
  unfold headerArm at h
  split at h
  · rename_i hlt
    refine ⟨hlt, ?_⟩
    split at h
    · rename_i h10; exact .inr ⟨h10, h⟩
    · rename_i h10; exact .inl ⟨h10, by simpa using h.symm⟩
  · simp at h

/-- R134: one byte in CollectData. -/
theorem dataArm_cases {c : Byte} {s t : State} (h : dataArm c s = .next t) :
    s.receivedLen.toNat < s.cfg.payloadCap ∧
    ((s.receivedLen.toNat + 1 ≠ s.targetLen.toNat + 2 ∧ t = storePayload c s) ∨
      (s.receivedLen.toNat + 1 = s.targetLen.toNat + 2 ∧ paychk (storePayload c s) = .next t)) := by
  unfold dataArm at h
  split at h
  · rename_i hlt
    refine ⟨hlt, ?_⟩
    split at h
    · rename_i hl; exact .inr ⟨hl, h⟩
    · rename_i hl; exact .inl ⟨hl, by simpa using h.symm⟩
  · simp at h

/-- R131: the three outcomes of one byte in SearchFlag. -/
theorem searchArm_cases (c : Byte) (s : State) :
    (c ≠ magic ∧ searchArm c s = { s with headerFilled := 0 }) ∨
    (c = magic ∧ s.headerFilled.toNat + 1 ≠ 4 ∧ searchArm c s = countMagic s) ∨
    (c = magic ∧ s.headerFilled.toNat + 1 = 4 ∧ searchArm c s = primeHeader s) := by
  unfold searchArm
  by_cases hc : c = magic
  · by_cases h4 : s.headerFilled.toNat + 1 = 4
    · exact .inr (.inr ⟨hc, h4, by rw [if_pos hc, if_pos h4]⟩)
    · exact .inr (.inl ⟨hc, h4, by rw [if_pos hc, if_neg h4]⟩)
  · exact .inl ⟨hc, by rw [if_neg hc]⟩

theorem u16_succ_le (v : Half) : (u16 (v.toNat + 1)).toNat ≤ v.toNat + 1 := by
  simp only [u16, BitVec.toNat_ofNat]; omega

theorem hdrchk_outer {s t : State} (h : hdrchk s = .next t) : SameOuter s t := by
  rcases hdrchk_cases h with ⟨-, rfl⟩ | ⟨-, -, rfl⟩ | ⟨-, -, -, rfl⟩ | ⟨-, -, -, rfl⟩
  · have := resync_frame (emit (.hdrCrc (windowComputed s) (windowReceived s)) s)
    exact ⟨this.1, this.2.2.2.1, this.2.2.2.2.2.1, this.2.2.2.2.2.2.1, this.2.2.2.2.2.2.2.1⟩
  · exact ⟨rfl, rfl, rfl, rfl, rfl⟩
  · exact ⟨rfl, rfl, rfl, rfl, rfl⟩
  · have := resync_frame (emit (.len (windowLength s)) (takeCommand s))
    exact ⟨this.1, this.2.2.2.1, this.2.2.2.2.2.1, this.2.2.2.2.2.2.1, this.2.2.2.2.2.2.2.1⟩

/-- A byte leaves the parameters, the encoder's side and the inputs alone. -/
theorem consume_outer {c : Byte} {s t : State} (h : consume c s = .next t) : SameOuter s t := by
  unfold consume at h
  split at h
  · simp only [Host.Outcome.next.injEq] at h
    subst h
    rcases searchArm_cases c s with ⟨-, e⟩ | ⟨-, -, e⟩ | ⟨-, -, e⟩ <;> rw [e] <;>
      exact ⟨rfl, rfl, rfl, rfl, rfl⟩
  · obtain ⟨-, ⟨-, rfl⟩ | ⟨-, h⟩⟩ := headerArm_cases h
    · exact ⟨rfl, rfl, rfl, rfl, rfl⟩
    · have hs : SameOuter s (storeHeader c s) := ⟨rfl, rfl, rfl, rfl, rfl⟩
      exact hs.trans (hdrchk_outer h)
  · obtain ⟨-, ⟨-, rfl⟩ | ⟨-, h⟩⟩ := dataArm_cases h
    · exact ⟨rfl, rfl, rfl, rfl, rfl⟩
    · obtain ⟨-, ⟨-, -, rfl⟩ | ⟨-, -, rfl⟩ | ⟨-, -, rfl⟩⟩ := paychk_cases h <;>
        exact ⟨rfl, rfl, rfl, rfl, rfl⟩

theorem hdrchk_queue {s t : State} (h : hdrchk s = .next t) : t.queue = s.queue ∧ held t ≤ 10 := by
  have hr : ∀ u : State, (resync u).queue = u.queue ∧ held (resync u) ≤ 10 := by
    intro u
    have := resync_frame u
    refine ⟨this.2.2.1, ?_⟩
    have hs := this.2.2.2.2.2.2.2.2.1
    have hf := this.2.2.2.2.2.2.2.2.2
    unfold held
    cases hst : (resync u).state <;> simp_all
  rcases hdrchk_cases h with ⟨-, rfl⟩ | ⟨-, -, rfl⟩ | ⟨-, -, -, rfl⟩ | ⟨-, -, -, rfl⟩
  · exact hr _
  · exact ⟨rfl, by simp [held]⟩
  · exact ⟨rfl, by simp [held]⟩
  · exact hr _

/-- R168: one byte either keeps the queue and moves at most that byte to `held`, or (the payload rescan)
shrinks `Φ` by at least 10. -/
theorem consume_potential {c : Byte} {s t : State} (h : consume c s = .next t) :
    (t.queue = s.queue ∧ held t ≤ held s + 1) ∨
    t.queue.length + held t + 10 ≤ s.queue.length + held s + 1 := by
  unfold consume at h
  split at h
  · rename_i hst
    simp only [Host.Outcome.next.injEq] at h
    subst h
    have := u16_succ_le s.headerFilled
    rcases searchArm_cases c s with ⟨-, e⟩ | ⟨-, -, e⟩ | ⟨-, h4, e⟩ <;> rw [e] <;>
      refine .inl ⟨rfl, ?_⟩
    · simp [held, hst]
    · simpa [held, hst] using this
    · have e4 : (4 : Half).toNat = 4 := rfl
      simp only [held, hst, primeHeader_state, primeHeader_headerFilled, e4]
      omega
  · rename_i hst
    have := u16_succ_le s.headerFilled
    obtain ⟨hlt, ⟨-, rfl⟩ | ⟨h10, h⟩⟩ := headerArm_cases h
    · exact .inl ⟨rfl, by simpa [held, hst] using this⟩
    · obtain ⟨hq, hh⟩ := hdrchk_queue h
      refine .inl ⟨hq, ?_⟩
      have : held s = s.headerFilled.toNat := by simp [held, hst]
      omega
  · rename_i hst
    have := u16_succ_le s.receivedLen
    obtain ⟨hlt, ⟨-, rfl⟩ | ⟨hl, h⟩⟩ := dataArm_cases h
    · refine .inl ⟨rfl, ?_⟩
      simp only [held, storePayload_state, storePayload_receivedLen, hst]; omega
    · obtain ⟨-, ⟨-, -, rfl⟩ | ⟨-, -, rfl⟩ | ⟨-, -, rfl⟩⟩ := paychk_cases h
      · exact .inl ⟨rfl, by simp [held]⟩
      · exact .inl ⟨rfl, by simp [held]⟩
      · right
        simp only [rescanned, replayFrom, setQueue_queue, List.length_append, List.length_drop, buffered,
          pl, Memory.length_readBytes, held, setQueue_state, setQueue_headerFilled, resetParser_state,
          resetParser_headerFilled, emit_queue, storePayload_queue, storePayload_targetLen, hst]
        have : (0 : Half).toNat = 0 := rfl
        omega

/-! ### The loop -/

/-- A measure that every round of the loop decreases (R168). -/
def rank (s : State) : Nat := potential s * (potential s + 1) + s.queue.length

theorem rank_lt_loopFuel (s : State) : rank s < loopFuel s := by
  have : s.queue.length ≤ potential s := by unfold potential; omega
  unfold rank loopFuel
  nlinarith

theorem rank_decreases {c : Byte} {rest : List Byte} {s t : State} (hq : s.queue = c :: rest)
    (h : consume c (setQueue rest s) = .next t) : rank t < rank s := by
  have hp := consume_potential h
  have hh : held (setQueue rest s) = held s := rfl
  have hs : potential s = rest.length + 1 + held s := by simp [potential, hq]
  have hql : s.queue.length = rest.length + 1 := by simp [hq]
  rw [hh] at hp
  have key : potential t < potential s ∨
      (potential t = potential s ∧ t.queue.length < s.queue.length) := by
    rcases hp with ⟨e, hle⟩ | hle
    · have e' : t.queue.length = rest.length := by rw [e]; rfl
      have : potential t = rest.length + held t := by rw [potential, e']
      omega
    · have : potential t = t.queue.length + held t := rfl
      simp only [setQueue_queue] at hle
      omega
  have hl : t.queue.length ≤ potential t := by unfold potential; omega
  unfold rank
  rcases key with hlt | ⟨he, hlt⟩
  · nlinarith
  · rw [he]; omega

/-- R130: with enough rounds, the loop is: stop on an empty queue, else consume its head and go on. -/
theorem drain_unfold {fuel : Nat} {s : State} (h : rank s < fuel) :
    drain fuel s = match s.queue with
      | [] => .next s
      | c :: rest => andThen (consume c (setQueue rest s)) (drain (fuel - 1)) := by
  cases fuel with
  | zero => omega
  | succ n => rw [drain]; rfl

/-- More rounds than the measure change nothing. -/
theorem drain_fuel {n m : Nat} {s : State} (hn : rank s < n) (hm : rank s < m) :
    drain n s = drain m s := by
  induction hk : rank s using Nat.strong_induction_on generalizing n m s with
  | _ k ih =>
    rw [drain_unfold hn, drain_unfold hm]
    cases hq : s.queue with
    | nil => rfl
    | cons c rest =>
      simp only
      cases hc : consume c (setQueue rest s) with
      | fault e => rfl
      | refused e => rfl
      | next t =>
        have hd := rank_decreases hq hc
        exact ih (rank t) (by omega) (by omega) (by omega) rfl

/-- R149, R168: the bound on the loop is never met. -/
theorem drain_ne_loopBound {fuel : Nat} {s : State} (h : rank s < fuel) :
    drain fuel s ≠ .fault .loopBound := by
  induction hk : rank s using Nat.strong_induction_on generalizing fuel s with
  | _ k ih =>
    rw [drain_unfold h]
    cases hq : s.queue with
    | nil => simp
    | cons c rest =>
      simp only
      cases hc : consume c (setQueue rest s) with
      | fault e =>
        intro he
        simp only [andThen_fault, Host.Outcome.fault.injEq] at he
        subst he
        unfold consume at hc
        split at hc
        · simp at hc
        · unfold headerArm at hc
          split at hc
          · split at hc
            · obtain ⟨t, ht⟩ := hdrchk_total (storeHeader c (setQueue rest s))
              rw [ht] at hc
              simp at hc
            · simp at hc
          · simp at hc
        · unfold dataArm at hc
          split at hc
          · split at hc
            · unfold paychk payrescan dispatchCommand withPayload at hc
              split at hc
              · split at hc
                · split at hc <;> simp at hc
                · split at hc <;> simp at hc
              · simp at hc
            · simp at hc
          · simp at hc
      | refused e => simp
      | next t =>
        have hd := rank_decreases hq hc
        exact ih (rank t) (by omega) (by omega) rfl

/-- A property that every consumed byte keeps holds at the end of the loop. -/
theorem drain_induct {P : State → Prop}
    (hP : ∀ (c : Byte) (s t : State), P s → consume c s = .next t → P t)
    (hQ : ∀ (s : State) (q : List Byte), P s → P (setQueue q s))
    {fuel : Nat} {s t : State} (hs : P s) (h : drain fuel s = .next t) : P t ∧ t.queue = [] := by
  induction fuel generalizing s with
  | zero =>
    rw [drain] at h
    split at h
    · simp only [Host.Outcome.next.injEq] at h; subst h; exact ⟨hs, by assumption⟩
    · simp at h
  | succ n ih =>
    rw [drain] at h
    split at h
    · simp only [Host.Outcome.next.injEq] at h; subst h; exact ⟨hs, by assumption⟩
    · obtain ⟨u, hu, h⟩ := andThen_eq_next.1 h
      exact ih (hP _ _ _ (hQ _ _ hs) hu) h

/-- R130: a byte that leaves no replay is one round. -/
theorem rxByte_of_consume {b : Byte} {s t : State} (h : consume b (setQueue [] s) = .next t)
    (hq : t.queue = []) : rxByte b s = .next t := by
  have hr := rank_lt_loopFuel (setQueue [b] s)
  have hd := rank_decreases (s := setQueue [b] s) rfl h
  unfold rxByte
  rw [drain_unfold hr]
  show andThen (consume b (setQueue [] s)) _ = _
  rw [h, andThen_next, drain_unfold (by omega), hq]

/-- R130: a byte followed by the replay it caused. -/
theorem rxByte_eq (b : Byte) (s : State) :
    rxByte b s = andThen (consume b (setQueue [] s)) fun t => drain (loopFuel t) t := by
  have hr := rank_lt_loopFuel (setQueue [b] s)
  unfold rxByte
  rw [drain_unfold hr]
  show andThen (consume b (setQueue [] s)) _ = _
  cases hc : consume b (setQueue [] s) with
  | fault e => rfl
  | refused e => rfl
  | next t =>
    have hd := rank_decreases (s := setQueue [b] s) rfl hc
    exact drain_fuel (by omega) (rank_lt_loopFuel t)

theorem rxByte_outer {b : Byte} {s t : State} (h : rxByte b s = .next t) :
    SameOuter s t ∧ t.queue = [] := by
  unfold rxByte at h
  exact drain_induct (P := SameOuter s) (fun _ _ _ hs hc => hs.trans (consume_outer hc))
    (fun _ _ hs => hs) (s := setQueue [b] s) ⟨rfl, rfl, rfl, rfl, rfl⟩ h

/-! ### Chunks -/

theorem rxParse_append (x y : List Byte) (s : State) :
    rxParse (x ++ y) s = andThen (rxParse x s) (rxParse y) := by
  induction x generalizing s with
  | nil => rfl
  | cons b x ih =>
    simp only [List.cons_append, rxParse, andThen_assoc]
    congr 1; funext t; exact ih t

end Sys2Proof.Machine
end

