-- ==== Sys2Proof/Laws/Encoder.lean ====
section
/-! SUPPORT. What the encoder can do (R180 to R184): its result and the destination it leaves depend on its
operands, the parameters and the destination alone. -/

namespace Sys2Proof.Machine

/-- R54: of an operand buffer whose bytes are all listed, the first `n` are read. -/
theorem operandBytes_eq_take : ∀ {n : Nat} {p : List Byte}, n ≤ p.length → operandBytes n p = p.take n
  | 0, _, _ => by simp [operandBytes]
  | n + 1, b :: p, h => by
    simp [operandBytes, operandBytes_eq_take (n := n) (p := p) (by simpa using h)]

theorem length_operandBytes : ∀ (n : Nat) (p : List Byte), (operandBytes n p).length = n
  | 0, _ => rfl
  | n + 1, [] => by simp [operandBytes, length_operandBytes n []]
  | n + 1, b :: p => by simp [operandBytes, length_operandBytes n p]

/-- R182: the four tests, each with its bound. -/
theorem encodeAccepted_iff {c : Config} {v : Bool} {n : Half} {cap : Nat} :
    encodeAccepted c v n cap = true ↔
      v = true ∧ 10 < cap ∧ n.toNat ≤ c.maxPayloadLen ∧ (n ≠ 0 → 12 + n.toNat ≤ cap) := by
  simp only [encodeAccepted, hdrLen, crcLen, lengthAccepted, Bool.and_eq_true, Bool.not_eq_true',
    Bool.and_eq_false_iff, decide_eq_false_iff_not, bne_eq_false_iff_eq, decide_eq_true_eq]
  constructor
  · rintro ⟨⟨⟨h1, h2⟩, h3⟩, h4⟩
    refine ⟨h1, by omega, h3, fun hn => ?_⟩
    rcases h4 with h | h
    · exact absurd h hn
    · omega
  · rintro ⟨h1, h2, h3, h4⟩
    refine ⟨⟨⟨h1, by omega⟩, h3⟩, ?_⟩
    by_cases hn : n = 0
    · exact .inl hn
    · exact .inr (by have := h4 hn; omega)

/-- R181: the header bytes where they were written, the old contents elsewhere. -/
theorem read_writeHeader (t u : Byte) (n : Half) (p : List Byte) {m : Memory} (hw : m.wf = true) (i : Nat) :
    (m.writeBytes 0 (headerBytes t u n (headerChecksum t u n))).read i =
      if i < 10 then frameByte t u n p m.read i else m.read i := by
  rw [Memory.read_writeBytes hw]
  by_cases hlt : i < 10
  · rw [if_pos (by simpa [headerBytes, fieldBytes] using hlt), if_pos hlt]
    have : i = 0 ∨ i = 1 ∨ i = 2 ∨ i = 3 ∨ i = 4 ∨ i = 5 ∨ i = 6 ∨ i = 7 ∨ i = 8 ∨ i = 9 := by omega
    rcases this with rfl | rfl | rfl | rfl | rfl | rfl | rfl | rfl | rfl | rfl <;> rfl
  · rw [if_neg (by simpa [headerBytes, fieldBytes] using hlt), if_neg hlt]

/-- R182: `TX.ENCODE` answers next in every state, with a result and destination bytes that another state with
the same parameters and destination gets too, and the canonical form is kept. -/
theorem execTxEncode_spec (v : Bool) (t u : Byte) (n : Half) (p : List Byte) (cap : Nat) (c : Config)
    (d : Memory) :
    ∃ (m : Memory) (r : EncResult), (d.wf = true → m.wf = true) ∧
      ∀ s : State, s.cfg = c → s.dest = d →
        execTxEncode v t u n p cap s = .next { s with dest := m, txo := s.txo ++ [r] } := by
  by_cases ha : encodeAccepted c v n cap = true
  · by_cases h0 : n = 0
    · refine ⟨d.writeBytes 0 (headerBytes t u n (headerChecksum t u n)), .ok hdrLen,
        fun h => Memory.wf_writeBytes h, ?_⟩
      rintro s rfl rfl
      rw [execTxEncode, if_pos ha, if_pos h0]
      rfl
    · refine ⟨(d.writeBytes 0 (headerBytes t u n (headerChecksum t u n))).writeBytes hdrLen
          (operandBytes n.toNat p ++ fieldBytes (payloadChecksum (operandBytes n.toNat p))),
        .ok (hdrLen + crcLen + n.toNat), fun h => Memory.wf_writeBytes (Memory.wf_writeBytes h), ?_⟩
      rintro s rfl rfl
      rw [execTxEncode, if_pos ha, if_neg h0]
      simp only [answerTx, fillPayload, fillHeader]
  · refine ⟨d, .invalidArgument, fun h => h, ?_⟩
    rintro s rfl rfl
    rw [execTxEncode, if_neg ha]
    rfl

end Sys2Proof.Machine
end

