-- ==== Sys2Proof/Laws/Reception.lean ====
section
/-! SUPPORT. Reception: what one byte does in each decoder state, and that bytes standing behind the work
queue are received after it (R130, R167). -/

namespace Sys2Proof.Machine

/-- R24, R26: a counter goes up by one. -/
theorem u16_succ (v : Half) : u16 (v.toNat + 1) = v + 1 := by
  apply BitVec.eq_of_toNat_eq
  simp [u16]

/-- R132: a byte before the tenth. -/
theorem headerArm_store {c : Byte} {s : State} (h : s.headerFilled.toNat < 9) :
    headerArm c s = .next (storeHeader c s) := by
  unfold headerArm
  simp only [hbSize, hdrLen]
  rw [if_pos (by omega), if_neg (by omega)]

/-- R132: the tenth byte. -/
theorem headerArm_last {c : Byte} {s : State} (h : s.headerFilled.toNat = 9) :
    headerArm c s = hdrchk (storeHeader c s) := by
  unfold headerArm
  simp only [hbSize, hdrLen]
  rw [if_pos (by omega), if_pos (by omega)]

/-- R134: a byte before the last. -/
theorem dataArm_store {c : Byte} {s : State} (h : s.receivedLen.toNat < s.cfg.payloadCap)
    (hl : s.receivedLen.toNat ≠ s.targetLen.toNat + 1) :
    dataArm c s = .next (storePayload c s) := by
  unfold dataArm
  simp only [crcLen]
  rw [if_pos h, if_neg (by omega)]

/-- R134: the last byte. -/
theorem dataArm_last {c : Byte} {s : State} (h : s.receivedLen.toNat < s.cfg.payloadCap)
    (hl : s.receivedLen.toNat = s.targetLen.toNat + 1) :
    dataArm c s = paychk (storePayload c s) := by
  unfold dataArm
  simp only [crcLen]
  rw [if_pos h, if_pos (by omega)]

theorem headerArm_outside {c : Byte} {s : State} (h : 10 ≤ s.headerFilled.toNat) :
    headerArm c s = .fault (.headerIndex s.headerFilled.toNat) := by
  unfold headerArm
  simp only [hbSize]
  rw [if_neg (by omega)]

theorem dataArm_outside {c : Byte} {s : State} (h : s.cfg.payloadCap ≤ s.receivedLen.toNat) :
    dataArm c s = .fault (.payloadIndex s.receivedLen.toNat) := by
  unfold dataArm
  rw [if_neg (by omega)]

/-- R140: an empty payload. -/
theorem dispatchCommand_empty {s : State} (h : s.cmdLength = 0) :
    dispatchCommand s = .next (emit (.dispatch s.cmdType s.cmdSubtype 0 []) s) := by
  rw [dispatchCommand_eq_next]
  simp [h, pl, Memory.readBytes]

/-- R160: `RESYNC` neither reads nor writes the queue. -/
theorem resync_setQueue (q : List Byte) (s : State) : resync (setQueue q s) = setQueue q (resync s) := by
  unfold resync
  show (match resyncScan s.headerBuf with | some i => _ | none => if hb s 9 = magic then _ else _) = _
  cases resyncScan s.headerBuf with
  | some i => rfl
  | none => by_cases h : hb s 9 = magic <;> simp only [h, if_true, if_false] <;> rfl

/-- R133: `HDRCHK` neither reads nor writes the queue. -/
theorem hdrchk_setQueue (q : List Byte) (s : State) :
    hdrchk (setQueue q s) = andThen (hdrchk s) fun t => .next (setQueue q t) := by
  have e1 : hdrOk (setQueue q s) = hdrOk s := rfl
  have e2 : windowLength (setQueue q s) = windowLength s := rfl
  unfold hdrchk
  rw [e1, e2]
  by_cases h1 : hdrOk s
  · by_cases h2 : windowLength s = 0
    · rw [if_pos h1, if_pos h2, if_pos h1, if_pos h2]
      rw [dispatchCommand_empty (s := takeCommand s) h2,
        dispatchCommand_empty (s := takeCommand (setQueue q s)) h2]
      rfl
    · rw [if_pos h1, if_neg h2, if_pos h1, if_neg h2]
      by_cases h3 : lengthAccepted s.cfg (windowLength s)
      · rw [if_pos h3, if_pos (by exact h3)]; rfl
      · rw [if_neg h3, if_neg (by exact h3)]
        show Host.Outcome.next _ = Host.Outcome.next _
        congr 1
        exact resync_setQueue q (emit (.len (windowLength s)) (takeCommand s))
  · rw [if_neg h1, if_neg h1]
    show Host.Outcome.next _ = Host.Outcome.next _
    congr 1
    exact resync_setQueue q (emit (.hdrCrc (windowComputed s) (windowReceived s)) s)

/-- Bytes behind the queue. -/
def queueBehind (q : List Byte) (s : State) : State := setQueue (s.queue ++ q) s

/-- R135, R166: `PAYCHK` replays in front of what the queue holds. -/
theorem paychk_queueBehind (q : List Byte) (s : State) :
    paychk (queueBehind q s) = andThen (paychk s) fun t => .next (queueBehind q t) := by
  have e1 : payOk (queueBehind q s) = payOk s := rfl
  have e2 : isMemdump (queueBehind q s) = isMemdump s := rfl
  unfold paychk withPayload
  rw [e1, e2]
  show (if s.targetLen.toNat + 2 ≤ s.cfg.payloadCap then _ else _) = _
  split
  · rename_i hc
    split
    · unfold dispatchCommand withPayload
      show andThen (if s.cmdLength.toNat ≤ s.cfg.payloadCap then _ else _) _ = _
      split
      · rfl
      · rfl
    · split
      · rfl
      · unfold payrescan withPayload
        show (if s.targetLen.toNat + 2 ≤ s.cfg.payloadCap then _ else _) = _
        rw [if_pos hc, if_pos hc]
        show Host.Outcome.next _ = Host.Outcome.next _
        congr 1
        show setQueue ((buffered s).drop (firstMagic (buffered s)) ++ (s.queue ++ q)) _ =
          setQueue (((buffered s).drop (firstMagic (buffered s)) ++ s.queue) ++ q) _
        rw [List.append_assoc]
        rfl
  · rfl

/-- R130: a byte does not see the bytes behind it. -/
theorem consume_queueBehind (c : Byte) (q : List Byte) (s : State) :
    consume c (queueBehind q s) = andThen (consume c s) fun t => .next (queueBehind q t) := by
  unfold consume
  show (match s.state with | .searchFlag => _ | .collectHeader => _ | .collectData => _) = _
  cases s.state with
  | searchFlag =>
    show Host.Outcome.next _ = Host.Outcome.next _
    congr 1
    unfold searchArm
    by_cases h1 : c = magic
    · by_cases h2 : s.headerFilled.toNat + 1 = 4
      · rw [if_pos h1, if_pos h1, if_pos h2, if_pos (by exact h2)]; rfl
      · rw [if_pos h1, if_pos h1, if_neg h2, if_neg (by exact h2)]; rfl
    · rw [if_neg h1, if_neg h1]; rfl
  | collectHeader =>
    show headerArm c (queueBehind q s) = andThen (headerArm c s) _
    unfold headerArm
    show (if s.headerFilled.toNat < hbSize then
      (if s.headerFilled.toNat + 1 = hdrLen then _ else _) else _) = _
    split
    · split
      · have : storeHeader c (queueBehind q s) = queueBehind q (storeHeader c s) := rfl
        rw [this, queueBehind, hdrchk_setQueue]
        cases h : hdrchk (storeHeader c s) with
        | next t => simp only [andThen_next, queueBehind, (hdrchk_queue h).1]
        | fault => rfl
        | refused => rfl
      · rfl
    · rfl
  | collectData =>
    show dataArm c (queueBehind q s) = andThen (dataArm c s) _
    unfold dataArm
    show (if s.receivedLen.toNat < s.cfg.payloadCap then
      (if s.receivedLen.toNat + 1 = s.targetLen.toNat + crcLen then _ else _) else _) = _
    split
    · split
      · exact paychk_queueBehind q (storePayload c s)
      · rfl
    · rfl

/-- The loop over a queue with bytes behind it. -/
theorem drain_queueBehind (q : List Byte) {s : State} {n m : Nat} (hn : rank (queueBehind q s) < n)
    (hm : rank s < m) :
    drain n (queueBehind q s) =
      andThen (drain m s) fun t => drain (loopFuel (setQueue q t)) (setQueue q t) := by
  induction hk : rank s using Nat.strong_induction_on generalizing n m s with
  | _ k ih =>
    rw [drain_unfold hm]
    cases hq : s.queue with
    | nil =>
      have : queueBehind q s = setQueue q s := by simp [queueBehind, hq]
      rw [this] at hn ⊢
      exact drain_fuel hn (rank_lt_loopFuel _)
    | cons c rest =>
      have hqb : (queueBehind q s).queue = c :: (rest ++ q) := by simp [queueBehind, hq]
      rw [drain_unfold hn, hqb]
      simp only
      have : setQueue (rest ++ q) (queueBehind q s) = queueBehind q (setQueue rest s) := rfl
      rw [this, consume_queueBehind]
      cases hc : consume c (setQueue rest s) with
      | fault e => rfl
      | refused e => rfl
      | next t =>
        have hd := rank_decreases hq hc
        have hc' : consume c (setQueue (rest ++ q) (queueBehind q s)) = .next (queueBehind q t) := by
          rw [this, consume_queueBehind, hc]; rfl
        have hd' := rank_decreases hqb hc'
        exact ih (rank t) (by omega) (by omega) (by omega) rfl

/-- R130, R167: the loop over a queue receives its bytes. -/
theorem drain_eq_rxParse (q : List Byte) (s : State) {n : Nat} (hn : rank (setQueue q s) < n) :
    drain n (setQueue q s) = rxParse q (setQueue [] s) := by
  induction q generalizing s n with
  | nil => rw [drain_unfold hn]; rfl
  | cons b q ih =>
    have e : setQueue (b :: q) s = queueBehind q (setQueue [b] s) := rfl
    rw [e] at hn ⊢
    rw [drain_queueBehind q hn (rank_lt_loopFuel _), rxParse]
    show andThen (rxByte b (setQueue [] s)) _ = _
    cases h : rxByte b (setQueue [] s) with
    | fault => rfl
    | refused => rfl
    | next t =>
      simp only [andThen_next]
      rw [ih t (rank_lt_loopFuel _)]
      have := (rxByte_outer h).2
      congr 1
      rw [setQueue, ← this]

end Sys2Proof.Machine
end

