-- ==== Sys2Proof/Laws/Frames.lean ====
section
/-! SUPPORT. Runs of bytes: a magic number, the rest of a header, a payload (R131, R132, R134). -/

namespace Sys2Proof.Machine

theorem rxParse_cons (b : Byte) (bs : List Byte) (s : State) :
    rxParse (b :: bs) s = andThen (rxByte b s) (rxParse bs) := rfl

theorem rxParse_singleton (b : Byte) (s : State) : rxParse [b] s = rxByte b s := by
  rw [rxParse_cons]
  cases rxByte b s <;> rfl

/-- R132: bytes that do not complete the header. -/
theorem rxParse_collectHeader : ∀ (bs : List Byte) (s : State), s.state = .collectHeader → s.queue = [] →
    s.headerFilled.toNat + bs.length ≤ 9 →
    rxParse bs s = .next { s with
      headerBuf := s.headerBuf.writeBytes s.headerFilled.toNat bs
      headerFilled := u16 (s.headerFilled.toNat + bs.length) }
  | [], s, _, _, _ => by simp [rxParse, Memory.writeBytes]
  | b :: bs, s, hs, hq, hl => by
    simp only [List.length_cons] at hl
    have hset : setQueue [] s = s := by rw [setQueue, ← hq]
    have hc : consume b (setQueue [] s) = .next (storeHeader b s) := by
      rw [hset]
      simp only [consume, hs]
      exact headerArm_store (by omega)
    have hu : (u16 (s.headerFilled.toNat + 1)).toNat = s.headerFilled.toNat + 1 := toNat_u16 (by omega)
    rw [rxParse_cons, rxByte_of_consume hc (by exact hq), andThen_next,
      rxParse_collectHeader bs (storeHeader b s) hs hq (by rw [storeHeader_headerFilled, hu]; omega)]
    simp only [storeHeader, hu, Memory.writeBytes, List.length_cons]
    congr 3
    omega

/-- R132: the bytes that complete the header. -/
theorem rxParse_completeHeader {bs : List Byte} {b : Byte} {s : State} (hs : s.state = .collectHeader)
    (hq : s.queue = []) (hl : s.headerFilled.toNat + bs.length = 9) :
    rxParse (bs ++ [b]) s = hdrchk { s with
      headerBuf := s.headerBuf.writeBytes s.headerFilled.toNat (bs ++ [b])
      headerFilled := 10 } := by
  rw [rxParse_append, rxParse_collectHeader bs s hs hq (by omega), andThen_next, rxParse_singleton]
  have h9 : (u16 (s.headerFilled.toNat + bs.length)).toNat = 9 := by rw [hl]; rfl
  have hst : ∀ t : State, t.state = .collectHeader → t.queue = [] → t.headerFilled.toNat = 9 →
      rxByte b t = hdrchk (storeHeader b t) := by
    intro t ht htq ht9
    have hset : setQueue [] t = t := by rw [setQueue, ← htq]
    obtain ⟨u, hu⟩ := hdrchk_total (storeHeader b t)
    rw [hu]
    refine rxByte_of_consume ?_ ((hdrchk_queue hu).1.trans htq)
    rw [hset, ← hu]
    simp only [consume, ht]
    exact headerArm_last ht9
  refine (hst _ ?_ ?_ ?_).trans ?_
  · exact hs
  · exact hq
  · exact h9
  · simp only [storeHeader, h9]
    rw [Memory.writeBytes_concat, hl]
    rfl

/-- R131: magic bytes that do not complete the magic number. -/
theorem rxParse_countMagic : ∀ (k : Nat) (s : State), s.state = .searchFlag → s.queue = [] →
    s.headerFilled.toNat + k ≤ 3 →
    rxParse (List.replicate k magic) s =
      .next { s with headerFilled := u16 (s.headerFilled.toNat + k) }
  | 0, s, _, _, _ => by simp [rxParse]
  | k + 1, s, hs, hq, hl => by
    have hset : setQueue [] s = s := by rw [setQueue, ← hq]
    have hc : consume magic (setQueue [] s) = .next (countMagic s) := by
      rw [hset]
      simp only [consume, hs, searchArm, if_true]
      rw [if_neg (by omega)]
    have hu : (u16 (s.headerFilled.toNat + 1)).toNat = s.headerFilled.toNat + 1 := toNat_u16 (by omega)
    rw [List.replicate_succ, rxParse_cons, rxByte_of_consume hc (by exact hq), andThen_next,
      rxParse_countMagic k (countMagic s) hs hq (by rw [countMagic_headerFilled, hu]; omega)]
    simp only [countMagic, hu]
    congr 3
    omega

/-- R131: the magic byte that completes the magic number. -/
theorem rxByte_primeHeader {s : State} (hs : s.state = .searchFlag) (hq : s.queue = [])
    (h3 : s.headerFilled.toNat = 3) : rxByte magic s = .next (primeHeader s) := by
  have hset : setQueue [] s = s := by rw [setQueue, ← hq]
  refine rxByte_of_consume ?_ hq
  rw [hset]
  simp only [consume, hs, searchArm, if_true]
  rw [if_pos (by omega)]

/-- R131: the magic number after `h` magic bytes of it. -/
theorem rxParse_magic {s : State} {k : Nat} (hs : s.state = .searchFlag) (hq : s.queue = [])
    (h4 : s.headerFilled.toNat + k = 4) (hk : 1 ≤ k) :
    rxParse (List.replicate k magic) s = .next (primeHeader s) := by
  obtain ⟨k, rfl⟩ : ∃ j, k = j + 1 := ⟨k - 1, by omega⟩
  rw [List.replicate_succ', rxParse_append, rxParse_countMagic k s hs hq (by omega), andThen_next,
    rxParse_singleton]
  refine (rxByte_primeHeader ?_ ?_ ?_).trans rfl
  · exact hs
  · exact hq
  · show (u16 (s.headerFilled.toNat + k)).toNat = 3
    rw [toNat_u16 (by omega)]; omega

/-- R132, R133: ten header bytes, of which `h` magic bytes came before. -/
theorem rxParse_header {s : State} {k : Nat} {bs : List Byte} {b : Byte} (hs : s.state = .searchFlag)
    (hq : s.queue = []) (h4 : s.headerFilled.toNat + k = 4) (hk : 1 ≤ k) (hl : bs.length = 5) :
    rxParse (List.replicate k magic ++ (bs ++ [b])) s = hdrchk { s with
      state := .collectHeader
      headerBuf := s.headerBuf.writeBytes 0 ([magic, magic, magic, magic] ++ (bs ++ [b]))
      headerFilled := 10 } := by
  rw [rxParse_append, rxParse_magic hs hq h4 hk, andThen_next,
    rxParse_completeHeader (s := primeHeader s) rfl hq (by rw [hl]; rfl)]
  rfl

/-- R134: bytes that do not complete the payload and its checksum. -/
theorem rxParse_collectData : ∀ (bs : List Byte) (s : State), s.state = .collectData → s.queue = [] →
    s.targetLen.toNat + 2 ≤ s.cfg.payloadCap → s.cfg.payloadCap ≤ 65535 →
    s.receivedLen.toNat + bs.length ≤ s.targetLen.toNat + 1 →
    rxParse bs s = .next { s with
      payload := s.payload.writeBytes s.receivedLen.toNat bs
      receivedLen := u16 (s.receivedLen.toNat + bs.length) }
  | [], s, _, _, _, _, _ => by simp [rxParse, Memory.writeBytes]
  | b :: bs, s, hs, hq, hc, h65, hl => by
    simp only [List.length_cons] at hl
    have hset : setQueue [] s = s := by rw [setQueue, ← hq]
    have hcon : consume b (setQueue [] s) = .next (storePayload b s) := by
      rw [hset]
      simp only [consume, hs]
      exact dataArm_store (by omega) (by omega)
    have hu : (u16 (s.receivedLen.toNat + 1)).toNat = s.receivedLen.toNat + 1 := toNat_u16 (by omega)
    rw [rxParse_cons, rxByte_of_consume hcon (by exact hq), andThen_next,
      rxParse_collectData bs (storePayload b s) hs hq hc h65
        (by rw [storePayload_receivedLen, hu]; show _ ≤ s.targetLen.toNat + 1; omega)]
    simp only [storePayload, hu, Memory.writeBytes, List.length_cons]
    congr 3
    omega

/-- R134: a whole payload with its checksum `bs`: it is stored, `PAYCHK` runs, and what that leaves in the
queue is received (R130, R167). -/
theorem rxParse_completeData {bs : List Byte} {b : Byte} {s : State} (hs : s.state = .collectData)
    (hq : s.queue = []) (hc : s.targetLen.toNat + 2 ≤ s.cfg.payloadCap) (h65 : s.cfg.payloadCap ≤ 65535)
    (hl : s.receivedLen.toNat + bs.length = s.targetLen.toNat + 1) :
    rxParse (bs ++ [b]) s = andThen
      (paychk { s with
        payload := s.payload.writeBytes s.receivedLen.toNat (bs ++ [b])
        receivedLen := u16 (s.targetLen.toNat + 2) })
      fun t => rxParse t.queue (setQueue [] t) := by
  rw [rxParse_append, rxParse_collectData bs s hs hq hc h65 (by omega), andThen_next, rxParse_singleton]
  have hu : (u16 (s.receivedLen.toNat + bs.length)).toNat = s.targetLen.toNat + 1 := by
    rw [hl, toNat_u16 (by omega)]
  have hlast : ∀ t : State, t.state = .collectData → t.queue = [] → t.cfg = s.cfg →
      t.targetLen = s.targetLen → t.receivedLen.toNat = s.targetLen.toNat + 1 →
      rxByte b t = andThen (paychk (storePayload b t)) fun t => rxParse t.queue (setQueue [] t) := by
    intro t ht htq htc htl htr
    have hset : setQueue [] t = t := by rw [setQueue, ← htq]
    rw [rxByte_eq, hset]
    simp only [consume, ht]
    rw [dataArm_last (by rw [htr, htc]; omega) (by rw [htr, htl])]
    congr 1
    funext u
    exact drain_eq_rxParse u.queue u (n := loopFuel u) (rank_lt_loopFuel u)
  refine (hlast _ ?_ ?_ ?_ ?_ ?_).trans ?_
  · exact hs
  · exact hq
  · rfl
  · rfl
  · exact hu
  · simp only [storePayload, hu]
    rw [Memory.writeBytes_concat, hl]

/-- R133: `HDRCHK` on a window that holds a header with its right checksum. -/
theorem hdrchk_of_header {type subtype : Byte} {length : Half} {s : State}
    (h : ∀ i < 10, hb s i = (headerBytes type subtype length (headerChecksum type subtype length)).getD i 0)
    (hm : length.toNat ≤ s.cfg.maxPayloadLen) :
    hb s 4 = type ∧ hb s 5 = subtype ∧ windowLength s = length ∧
    (length = 0 → hdrchk s =
      .next (resetParser (emit (.dispatch type subtype 0 []) (takeCommand s)))) ∧
    (length ≠ 0 → hdrchk s = .next (enterData (takeCommand s))) := by
  have h4 : hb s 4 = type := h 4 (by omega)
  have h5 : hb s 5 = subtype := h 5 (by omega)
  have h6 : hb s 6 = hi8 length := h 6 (by omega)
  have h7 : hb s 7 = lo8 length := h 7 (by omega)
  have h8 : hb s 8 = hi8 (headerChecksum type subtype length) := h 8 (by omega)
  have h9 : hb s 9 = lo8 (headerChecksum type subtype length) := h 9 (by omega)
  have hl : windowLength s = length := by rw [windowLength, h6, h7, be16_hi8_lo8]
  have hok : hdrOk s = true := by
    rw [hdrOk, windowComputed, windowReceived, hl, h4, h5, h8, h9, be16_hi8_lo8, beq_self_eq_true]
  refine ⟨h4, h5, hl, fun h0 => ?_, fun h0 => ?_⟩
  · have hl0 : windowLength s = 0 := hl.trans h0
    rw [hdrchk, if_pos hok, if_pos hl0, dispatchCommand_empty (s := takeCommand s) hl0]
    simp only [andThen_next, takeCommand_cmdType, takeCommand_cmdSubtype, h4, h5]
  · rw [hdrchk, if_pos hok, hl, if_neg h0,
      if_pos (show lengthAccepted s.cfg length = true from decide_eq_true hm)]

end Sys2Proof.Machine
end

