-- ==== Sys2Proof/Laws/Invariant.lean ====
section
/-! SUPPORT. One received byte keeps the invariant of R35 and never stops from a state that satisfies it. -/

namespace Sys2Proof.Machine

theorem RxInv.setQueue {s : State} (h : RxInv s) (q : List Byte) : RxInv (setQueue q s) :=
  ⟨h.cfg, h.memory, h.inv1, h.inv2, h.inv3, h.inv4, h.inv5, h.inv6⟩

theorem RxInv.emit {s : State} (h : RxInv s) (e : Event) : RxInv (emit e s) :=
  ⟨h.cfg, h.memory, h.inv1, h.inv2, h.inv3, h.inv4, h.inv5, h.inv6⟩

/-- What a reset needs of the state it resets. -/
theorem RxInv.of_reset {s : State} (hc : s.cfg.wf)
    (hm : s.headerBuf.wf = true ∧ s.payload.wf = true ∧ s.dest.wf = true)
    (hb : s.headerBuf.below 10 = true ∧ s.payload.below s.cfg.payloadCap = true) :
    RxInv (resetParser s) where
  cfg := hc
  memory := hm
  inv1 := by simp
  inv2 := by simp
  inv3 := by simp
  inv4 := by simp
  inv5 := by simp
  inv6 := ⟨hb.1, hb.2, by simp⟩

/-- What `RESYNC` needs of the state it works on: the parameters and the buffers. -/
theorem RxInv.of_resync {s : State} (hc : s.cfg.wf)
    (hm : s.headerBuf.wf = true ∧ s.payload.wf = true ∧ s.dest.wf = true)
    (hb : s.headerBuf.below 10 = true ∧ s.payload.below s.cfg.payloadCap = true) :
    RxInv (resync s) := by
  rcases resync_cases s with ⟨i, hi, e⟩ | ⟨hn, h9, e⟩ | ⟨-, -, e⟩ <;> rw [e]
  · obtain ⟨h4, h9, hrun⟩ := resyncScan_some hi
    have hf : (u16 (13 - i)).toNat = 13 - i := toNat_u16 (by omega)
    have hread := fun j => Memory.read_copyDown (m := s.headerBuf) (src := i - 3) (dst := 0)
      (n := 13 - i) (j := j) hm.1 (by omega)
    simp only [runEndsAt, Bool.and_eq_true, beq_iff_eq] at hrun
    obtain ⟨⟨⟨r3, r2⟩, r1⟩, r0⟩ := hrun
    refine ⟨hc, ⟨Memory.wf_copyDown hm.1, hm.2⟩, ?_, by simp [resyncShift], by simp [resyncShift], ?_,
      by simp [resyncShift], ⟨Memory.below_copyDown hb.1 (by omega), hb.2, by simp [resyncShift]⟩⟩
    · show (u16 (13 - i)).toNat ≤ 10
      omega
    · intro _
      refine ⟨?_, ?_, ?_, rfl, rfl, rfl, rfl, rfl⟩
      · show 4 ≤ (u16 (13 - i)).toNat
        omega
      · show (u16 (13 - i)).toNat ≤ 9
        omega
      · intro j hj
        show (s.headerBuf.copyDown (i - 3) 0 (13 - i)).read j = magic
        rw [hread, if_pos (by omega)]
        obtain rfl | rfl | rfl | rfl : j = 0 ∨ j = 1 ∨ j = 2 ∨ j = 3 := by omega
        · exact r3
        · rw [← r2]; congr 1; omega
        · rw [← r1]; congr 1; omega
        · rw [← r0]; congr 1; omega
  · have hb1 := tailRun_le_three hn h9
    have hf : (u16 (tailRun s.headerBuf 9 1)).toNat = tailRun s.headerBuf 9 1 := toNat_u16 (by omega)
    refine ⟨hc, hm, ?_, by simp [resyncTail], ?_, by simp [resyncTail], by simp [resyncTail],
      ⟨hb.1, hb.2, by simp [resyncTail]⟩⟩
    · show (u16 (tailRun s.headerBuf 9 1)).toNat ≤ 10
      omega
    · intro _
      refine ⟨?_, rfl, rfl, rfl, rfl, rfl⟩
      show (u16 (tailRun s.headerBuf 9 1)).toNat ≤ 3
      omega
  · exact RxInv.of_reset hc hm hb

/-- The header window is full: what `HDRCHK` needs, and what it leaves. -/
theorem RxInv.of_hdrchk {s t : State} (hc : s.cfg.wf)
    (hm : s.headerBuf.wf = true ∧ s.payload.wf = true ∧ s.dest.wf = true)
    (hbel : s.headerBuf.below 10 = true ∧ s.payload.below s.cfg.payloadCap = true)
    (hf : s.headerFilled = 10) (hmagic : ∀ i < 4, hb s i = magic) (h : hdrchk s = .next t) :
    RxInv t := by
  rcases hdrchk_cases h with ⟨-, rfl⟩ | ⟨-, -, rfl⟩ | ⟨hok, h0, ha, rfl⟩ | ⟨-, -, -, rfl⟩
  · exact RxInv.of_resync hc hm hbel
  · exact RxInv.of_reset hc hm hbel
  · have hl : (windowLength s).toNat ≤ s.cfg.maxPayloadLen := by simpa [lengthAccepted] using ha
    have hpos : 1 ≤ (windowLength s).toNat := by
      rcases Nat.eq_zero_or_pos (windowLength s).toNat with he | he
      · exact absurd (BitVec.eq_of_toNat_eq (by simpa using he)) h0
      · exact he
    refine ⟨hc, hm, by simp [hf], by simp, by simp, by simp, ?_, ⟨hbel.1, hbel.2, ?_⟩⟩
    · intro _
      refine ⟨hf, hpos, hl, by simp, rfl, rfl, rfl, rfl, hmagic, ?_⟩
      have := beq_iff_eq.1 hok
      exact this.symm
    · intro _
      have := hc.2.2.2.1
      show (windowLength s).toNat + 2 ≤ s.cfg.payloadCap
      omega
  · exact RxInv.of_resync hc hm hbel

/-- One byte from a state that satisfies R35: it is consumed, and R35 holds again (R149). -/
theorem RxInv.consume {s : State} (h : RxInv s) (c : Byte) :
    ∃ t, consume c s = .next t ∧ RxInv t := by
  have hbase := h.inv6
  have hm := h.memory
  unfold Machine.consume
  cases hst : s.state with
  | searchFlag =>
    obtain ⟨hf3, z1, z2, z3, z4, z5⟩ := h.inv3 hst
    refine ⟨_, rfl, ?_⟩
    rcases searchArm_cases c s with ⟨-, e⟩ | ⟨-, h4, e⟩ | ⟨-, -, e⟩ <;> rw [e]
    · refine ⟨h.cfg, hm, by simp, h.inv2, fun _ => ⟨by simp, z1, z2, z3, z4, z5⟩, ?_, ?_, ?_⟩
      · intro hs; rw [hst] at hs; cases hs
      · intro hs; rw [hst] at hs; cases hs
      · exact ⟨hbase.1, hbase.2.1, fun hs => by rw [hst] at hs; cases hs⟩
    · have hu : (u16 (s.headerFilled.toNat + 1)).toNat = s.headerFilled.toNat + 1 := toNat_u16 (by omega)
      refine ⟨h.cfg, hm, ?_, h.inv2, fun _ => ⟨?_, z1, z2, z3, z4, z5⟩, ?_, ?_, ?_⟩
      · rw [countMagic_headerFilled, hu]; omega
      · rw [countMagic_headerFilled, hu]; omega
      · intro hs; rw [countMagic_state, hst] at hs; cases hs
      · intro hs; rw [countMagic_state, hst] at hs; cases hs
      · exact ⟨hbase.1, hbase.2.1, fun hs => by rw [countMagic_state, hst] at hs; cases hs⟩
    · refine ⟨h.cfg, ⟨Memory.wf_writeBytes hm.1, hm.2⟩, by simp, h.inv2, by simp,
        fun _ => ⟨by simp, by simp, ?_, z1, z2, z3, z4, z5⟩, by simp,
        ⟨Memory.below_writeBytes hbase.1 (by simp), hbase.2.1, by simp⟩⟩
      intro i hi
      show (s.headerBuf.writeBytes 0 [magic, magic, magic, magic]).read i = magic
      rw [Memory.read_writeBytes hm.1, if_pos (by simp; omega)]
      obtain rfl | rfl | rfl | rfl : i = 0 ∨ i = 1 ∨ i = 2 ∨ i = 3 := by omega
      all_goals rfl
  | collectHeader =>
    obtain ⟨h4, h9, hmag, z1, z2, z3, z4, z5⟩ := h.inv4 hst
    have hu : (u16 (s.headerFilled.toNat + 1)).toNat = s.headerFilled.toNat + 1 := toNat_u16 (by omega)
    have hmag' : ∀ i < 4, hb (storeHeader c s) i = magic := by
      intro i hi
      show (s.headerBuf.write s.headerFilled.toNat c).read i = magic
      rw [Memory.read_write_other hm.1 (by omega)]
      exact hmag i hi
    have hm' : (storeHeader c s).headerBuf.wf = true ∧ (storeHeader c s).payload.wf = true ∧
        (storeHeader c s).dest.wf = true := ⟨Memory.wf_write hm.1, hm.2⟩
    have hb' : (storeHeader c s).headerBuf.below 10 = true ∧
        (storeHeader c s).payload.below (storeHeader c s).cfg.payloadCap = true :=
      ⟨Memory.below_write hbase.1 (by omega), hbase.2.1⟩
    show ∃ t, headerArm c s = .next t ∧ RxInv t
    rw [headerArm, if_pos (show s.headerFilled.toNat < 10 by omega)]
    split
    · rename_i h10
      simp only [hdrLen] at h10
      obtain ⟨t, ht⟩ := hdrchk_total (storeHeader c s)
      refine ⟨t, ht, RxInv.of_hdrchk (s := storeHeader c s) h.cfg hm' hb' ?_ hmag' ht⟩
      show u16 (s.headerFilled.toNat + 1) = 10
      rw [h10]; rfl
    · rename_i h10
      simp only [hdrLen] at h10
      refine ⟨_, rfl, ⟨h.cfg, hm', ?_, h.inv2, ?_, ?_, ?_, ⟨hb'.1, hb'.2, ?_⟩⟩⟩
      · rw [storeHeader_headerFilled, hu]; omega
      · intro hs; rw [storeHeader_state, hst] at hs; cases hs
      · intro _
        refine ⟨?_, ?_, hmag', z1, z2, z3, z4, z5⟩ <;> rw [storeHeader_headerFilled, hu] <;> omega
      · intro hs; rw [storeHeader_state, hst] at hs; cases hs
      · intro hs; rw [storeHeader_state, hst] at hs; cases hs
  | collectData =>
    obtain ⟨hf, hT1, hTm, hR, hL, d1, d2, d3, d4, d5⟩ := h.inv5 hst
    have hcap := hbase.2.2 hst
    have h65 := h.cfg.2.1
    have hu : (u16 (s.receivedLen.toNat + 1)).toNat = s.receivedLen.toNat + 1 := toNat_u16 (by omega)
    have hm' : (storePayload c s).headerBuf.wf = true ∧ (storePayload c s).payload.wf = true ∧
        (storePayload c s).dest.wf = true := ⟨hm.1, Memory.wf_write hm.2.1, hm.2.2⟩
    have hb' : (storePayload c s).headerBuf.below 10 = true ∧
        (storePayload c s).payload.below (storePayload c s).cfg.payloadCap = true :=
      ⟨hbase.1, Memory.below_write hbase.2.1
        (show s.receivedLen.toNat < s.cfg.payloadCap by omega)⟩
    show ∃ t, dataArm c s = .next t ∧ RxInv t
    rw [dataArm, if_pos (show s.receivedLen.toNat < s.cfg.payloadCap by omega)]
    split
    · obtain ⟨t, ht⟩ := paychk_total (s := storePayload c s) hcap
        (by rw [storePayload_cmdLength, hL]; show s.targetLen.toNat ≤ s.cfg.payloadCap; omega)
      refine ⟨t, ht, ?_⟩
      obtain ⟨-, ⟨-, -, rfl⟩ | ⟨-, -, rfl⟩ | ⟨-, -, rfl⟩⟩ := paychk_cases ht
      · exact RxInv.of_reset (s := Machine.emit _ (storePayload c s)) h.cfg hm' hb'
      · exact RxInv.of_reset (s := storePayload c s) h.cfg hm' hb'
      · exact (RxInv.of_reset (s := Machine.emit _ (storePayload c s)) h.cfg hm' hb').setQueue _
    · rename_i hl
      simp only [crcLen] at hl
      refine ⟨_, rfl, ⟨h.cfg, hm', h.inv1, ?_, ?_, ?_, ?_, ⟨hb'.1, hb'.2, fun _ => hcap⟩⟩⟩
      · rw [storePayload_receivedLen, hu]; show _ ≤ s.targetLen.toNat + 2; omega
      · intro hs; rw [storePayload_state, hst] at hs; cases hs
      · intro hs; rw [storePayload_state, hst] at hs; cases hs
      · intro _
        refine ⟨hf, hT1, hTm, ?_, hL, d1, d2, d3, d4, d5⟩
        rw [storePayload_receivedLen, hu]; show _ ≤ s.targetLen.toNat + 1; omega

/-- The loop from a state that satisfies R35: the queue is consumed, and R35 holds again. -/
theorem RxInv.drain {s : State} (h : RxInv s) {fuel : Nat} (hf : rank s < fuel) :
    ∃ t, drain fuel s = .next t ∧ RxInv t ∧ t.queue = [] := by
  induction hk : rank s using Nat.strong_induction_on generalizing fuel s with
  | _ k ih =>
    rw [drain_unfold hf]
    cases hq : s.queue with
    | nil => exact ⟨s, rfl, h, hq⟩
    | cons c rest =>
      obtain ⟨t, ht, hi⟩ := (h.setQueue rest).consume c
      have hd := rank_decreases hq ht
      simp only
      rw [ht, andThen_next]
      exact ih (rank t) (by omega) hi (by omega) rfl

end Sys2Proof.Machine
end

