-- ==== Sys2Proof/Laws/PerInstr.lean ====
section
/-! SUPPORT. One statement about every operation as syntax: exactly the internal micro-operations have no
encoding (R12). -/

namespace Sys2Proof.Laws.Selector

/-- R12: an operation has no selector exactly when it is internal. -/
def Statement (i : Instr) : Prop := encode i = none ↔ i.isInternal = true

theorem rxReset : Statement .rxReset := by simp [Statement, encode, Instr.isInternal]
theorem rxByte (b : Byte) : Statement (.rxByte b) := by simp [Statement, encode, Instr.isInternal]
theorem txEncode (v : Bool) (t u : Byte) (n : Half) (p : List Byte) (c : Nat) :
    Statement (.txEncode v t u n p c) := by simp [Statement, encode, Instr.isInternal]
theorem csumHdr (t u : Byte) (n : Half) : Statement (.csumHdr t u n) := by
  simp [Statement, encode, Instr.isInternal]
theorem csumPay (p : List Byte) : Statement (.csumPay p) := by simp [Statement, encode, Instr.isInternal]
theorem frameH (t u : Byte) (h : Half) : Statement (.frameH t u h) := by
  simp [Statement, encode, Instr.isInternal]
theorem frameHP (t u : Byte) (n h : Half) (p : List Byte) (c : Half) :
    Statement (.frameHP t u n h p c) := by simp [Statement, encode, Instr.isInternal]
theorem rxParse (bs : List Byte) : Statement (.rxParse bs) := by
  simp [Statement, encode, Instr.isInternal]
theorem hdrchk : Statement .hdrchk := by simp [Statement, encode, Instr.isInternal]
theorem paychk : Statement .paychk := by simp [Statement, encode, Instr.isInternal]
theorem dispatch : Statement .dispatch := by simp [Statement, encode, Instr.isInternal]
theorem resetInt : Statement .resetInt := by simp [Statement, encode, Instr.isInternal]
theorem resync : Statement .resync := by simp [Statement, encode, Instr.isInternal]
theorem payrescan (c r : Half) : Statement (.payrescan c r) := by
  simp [Statement, encode, Instr.isInternal]
theorem txFillhdr (t u : Byte) (n : Half) : Statement (.txFillhdr t u n) := by
  simp [Statement, encode, Instr.isInternal]

end Sys2Proof.Laws.Selector
end

