-- ==== Sys2Proof/Laws/Resync.lean ====
section
/-! SUPPORT. The scan of `RESYNC` and the search of `PAYRESCAN` in terms of the bytes they look for (R161,
R166). -/

namespace Sys2Proof.Machine

theorem runEndsAt_iff (s : State) (i : Nat) : runEndsAt s.headerBuf i = true ↔ MagicRun s i := by
  simp only [runEndsAt, Bool.and_eq_true, beq_iff_eq, MagicRun, hb]
  constructor
  · rintro ⟨⟨⟨a, b⟩, c⟩, d⟩ k hk
    obtain rfl | rfl | rfl | rfl : k = 0 ∨ k = 1 ∨ k = 2 ∨ k = 3 := by omega
    all_goals assumption
  · intro h
    exact ⟨⟨⟨h 3 (by omega), h 2 (by omega)⟩, h 1 (by omega)⟩, h 0 (by omega)⟩

theorem runEndsAt_eq_false {s : State} {i : Nat} (h : ¬ MagicRun s i) : runEndsAt s.headerBuf i = false := by
  rw [← runEndsAt_iff] at h
  simpa using h

/-- R161: the scan answers the run nearest the end of the window. -/
theorem resyncScan_eq_some {s : State} {i : Nat} (h4 : 4 ≤ i) (h9 : i ≤ 9) (hr : MagicRun s i)
    (hn : ∀ j, i < j → j ≤ 9 → ¬ MagicRun s j) : resyncScan s.headerBuf = some i := by
  have hr' := (runEndsAt_iff s i).2 hr
  have hn' := fun j a b => runEndsAt_eq_false (hn j a b)
  unfold resyncScan
  obtain rfl | rfl | rfl | rfl | rfl | rfl : i = 4 ∨ i = 5 ∨ i = 6 ∨ i = 7 ∨ i = 8 ∨ i = 9 := by omega
  all_goals simp [List.find?, hr', hn']

theorem resyncScan_eq_none {s : State} (hn : ∀ j, 4 ≤ j → j ≤ 9 → ¬ MagicRun s j) :
    resyncScan s.headerBuf = none := by
  have hn' := fun j a b => runEndsAt_eq_false (hn j a b)
  simp [resyncScan, List.find?, hn']

/-- R166: the search answers `k` when the first magic byte is at `k`, or at the end when there is none. -/
theorem firstMagic_eq : ∀ (bs : List Byte) (k : Nat), k ≤ bs.length → (∀ j < k, bs.getD j 0 ≠ magic) →
    (k < bs.length → bs.getD k 0 = magic) → firstMagic bs = k
  | [], k, h, _, _ => by simp at h; simp [firstMagic, h]
  | b :: bs, 0, _, _, h => by have := h (by simp); simp at this; simp [firstMagic, this]
  | b :: bs, k + 1, h, hn, hk => by
    have h0 := hn 0 (by omega)
    simp at h0
    simp only [firstMagic, h0, if_false, Nat.add_right_cancel_iff]
    refine firstMagic_eq bs k (by simpa using h) (fun j hj => by simpa using hn (j + 1) (by omega))
      (fun hlt => by simpa using hk (by simpa using hlt))

end Sys2Proof.Machine
end

