-- ==== Sys2Proof/Laws/Transaction.lean ====
section
/-! SUPPORT. What one transaction takes and runs, and what reset leaves (R11, R89, R230). -/

namespace Sys2Proof.Machine

/-- The buffer spaces of the reset state are in canonical form. -/
theorem reset_memory_wf : State.reset.headerBuf.wf = true ∧ State.reset.payload.wf = true ∧
    State.reset.dest.wf = true := ⟨rfl, rfl, rfl⟩

theorem takeInput_nil {s : State} (h : s.inputs = []) : takeInput s = none := by rw [takeInput, h]

theorem takeInput_cons {s : State} {x : Stimulus} {rest : List Stimulus} (h : s.inputs = x :: rest) :
    takeInput s = some (x, { s with inputs := rest }) := by rw [takeInput, h]

/-- Operations run one after the other. -/
theorem execAll_append (is js : List Instr) (s : State) :
    execAll (is ++ js) s = andThen (execAll is s) (execAll js) := by
  induction is generalizing s with
  | nil => rfl
  | cons i is ih =>
    simp only [List.cons_append, execAll, andThen_assoc]
    congr 1; funext t; exact ih t

/-- R89: the five tests of the request word, bit by bit. -/
theorem requests_bits (rq : BitVec 5) :
    requests 0b00001 0b00001 rq = rq.getLsbD 0 ∧
    requests 0b00010 0b00011 rq = (!rq.getLsbD 0 && rq.getLsbD 1) ∧
    requests 0b00100 0b00100 rq = rq.getLsbD 2 ∧
    requests 0b01000 0b11000 rq = (rq.getLsbD 3 && !rq.getLsbD 4) ∧
    requests 0b11000 0b11000 rq = (rq.getLsbD 3 && rq.getLsbD 4) := by
  revert rq
  decide

/-- A chunk leaves the parameters, the encoder's side and the inputs alone. -/
theorem rxParse_outer : ∀ {bs : List Byte} {s t : State}, rxParse bs s = .next t → SameOuter s t
  | [], s, t, h => by
    simp only [rxParse, Host.Outcome.next.injEq] at h
    subst h
    exact ⟨rfl, rfl, rfl, rfl, rfl⟩
  | b :: bs, s, t, h => by
    obtain ⟨u, hu, h⟩ := andThen_eq_next.1 h
    exact (rxByte_outer hu).1.trans (rxParse_outer h)

end Sys2Proof.Machine
end

