-- ==== Sys2Proof/Tests/Slice0.lean ====
section
/-! SUPPORT. Tests. Expected values are those of spec/95_test_vectors.md (named V-...) or worked out by hand from
the rule named; then, for every statement with hypotheses, values that meet them. -/

namespace Sys2Proof.Tests

open Sys2Proof.Machine

/-! ### Helpers -/

/-- The defaults of R6 with the memdump subtypes that V-RX15 and V-PR4 assume. -/
def cfg : Config where
  payloadCap := 2036
  maxPayloadLen := 2034
  memdump0 := 0x20
  memdump1 := 0x21
  accW := 32
  lenW := 17

/-- `S0` with these parameters. -/
def box : State := { State.reset with cfg := cfg }

/-- The next state, when there is one. -/
def out (r : Result) : Option State :=
  match r with
  | .next s => some s
  | .fault _ => none
  | .refused _ => none

/-- The decoder state tuple of R98. -/
structure Tuple where
  state : RxState
  headerFilled : Half
  targetLen : Half
  receivedLen : Half
  cmdType : Byte
  cmdSubtype : Byte
  cmdLength : Half
  deriving DecidableEq, Repr

/-- The tuple of a state. -/
def core (s : State) : Tuple :=
  ⟨s.state, s.headerFilled, s.targetLen, s.receivedLen, s.cmdType, s.cmdSubtype, s.cmdLength⟩

/-- The tuple of `S0`. -/
def s0 : Tuple := ⟨.searchFlag, 0, 0, 0, 0, 0, 0⟩

/-- The events and the tuple after an operation. -/
def seen (i : Instr) (s : State) : Option (List Event × Tuple) :=
  (out (exec i s)).map fun t => (t.trace, core t)

/-- A state whose header window is full. -/
def window (w : List Byte) : State :=
  { box with state := .collectHeader, headerFilled := 10, headerBuf := Memory.writeBytes [] 0 w }

/-- A state in which a frame of `bs.length - 2` payload bytes is complete in the buffer. -/
def filled (ty su : Byte) (bs : List Byte) : State :=
  { box with
    state := .collectData, headerFilled := 10, targetLen := u16 (bs.length - 2)
    receivedLen := u16 bs.length, cmdType := ty, cmdSubtype := su
    cmdLength := u16 (bs.length - 2), payload := Memory.writeBytes [] 0 bs }

/-! ### WellFormed refuses an ill-formed term for each check -/

theorem test_wf_txEncode : Instr.wf (.txEncode true 1 4 2 [9] 64) = false := by decide
theorem test_wf_csumPay : Instr.wf (.csumPay (List.replicate 65536 0)) = false := by
  simp only [Instr.wf, List.length_replicate]
  decide
theorem test_wf_frameHP_zero : Instr.wf (.frameHP 1 4 0 0 [] 0) = false := by decide
theorem test_wf_frameHP_count : Instr.wf (.frameHP 1 4 2 0 [9] 0) = false := by decide
theorem test_checksums_header : Instr.checksumsOk (.frameH 1 4 0x01FE) = false := by decide
theorem test_checksums_payload : Instr.checksumsOk (.frameHP 1 4 1 0x01FE [9] 0xF6FE) = false := by decide
theorem test_checksums_good : Instr.checksumsOk (.frameHP 1 4 1 0x01FE [9] 0xF6FF) = true := by decide
theorem test_wf_ports : Stimulus.wf (.ports { PortSample.idle with csData := List.replicate 65536 0 }) = false := by
  simp only [Stimulus.wf, PortSample.wf, List.length_replicate]
  decide

/-! ### Words written out bit by bit from R81 and R89 -/

theorem test_word_rxReset : decodeTableWord 5 0b00001 = some .rxReset := by decide
theorem test_word_rxByte : decodeTableWord 5 0b00010 = some (.rxByte 0) := by decide
theorem test_word_txEncode : decodeTableWord 5 0b00100 = some (.txEncode false 0 0 0 [] 0) := by decide
theorem test_word_csumHdr : decodeTableWord 5 0b01000 = some (.csumHdr 0 0 0) := by decide
theorem test_word_csumPay : decodeTableWord 5 0b11000 = some (.csumPay []) := by decide
/-- V-FM1: type 00000001, subtype 00000100, length 0, checksum 0000000111111111. -/
theorem test_word_frameH : decodeTableWord 80
    0b01111110011111100111111001111110_00000001_00000100_0000000000000000_0000000111111111 =
      some (.frameH 0x01 0x04 0x01FF) := by decide
/-- The header word of V-FM3, with a zero payload byte and a zero checksum behind it. -/
theorem test_word_frameHP : decodeTableWord 80
    0b01111110011111100111111001111110_00000010_00001001_0000000000000001_0000000011111001 =
      some (.frameHP 0x02 0x09 0x0001 0x00F9 [0x00] 0x0000) := by decide
/-- V-FM3, whole: the payload byte 7E is not escaped (R84). -/
theorem test_bytes_frameHP :
    decode (.frame [0x7E, 0x7E, 0x7E, 0x7E, 0x02, 0x09, 0x00, 0x01, 0x00, 0xF9, 0x7E, 0x81, 0xFF]) =
      [.frameHP 0x02 0x09 0x0001 0x00F9 [0x7E] 0x81FF] := by decide
/-- V-FM6: bit 0 wins over bit 1. -/
theorem test_ports_reset_wins :
    decode (.ports { PortSample.idle with rq := 0b00011, rxData := 0x7E }) = [.rxReset] := by decide
/-- V-FM7: `cs_mode` without `cs_req` requests nothing. -/
theorem test_ports_mode_alone : decode (.ports { PortSample.idle with rq := 0b10000 }) = [] := by decide
/-- R89: one word may ask every port. -/
theorem test_ports_all :
    decode (.ports { PortSample.idle with rq := 0b01110, rxData := 5, txType := 1, csType := 2 }) =
      [.rxByte 5, .txEncode false 1 0 0 [] 0, .csumHdr 2 0 0] := by decide
/-- R90: a wrong magic number is no frame. -/
theorem test_frame_noMagic :
    decodeFrame [0x7E, 0x7E, 0x7E, 0x7F, 0x01, 0x04, 0x00, 0x00, 0x01, 0xFF] = .error .noMagic := by rfl
theorem test_frame_short : decodeFrame [0x7E, 0x7E, 0x7E, 0x7E] = .error .shortHeader := by rfl
theorem test_frame_total :
    decodeFrame [0x7E, 0x7E, 0x7E, 0x7E, 0x01, 0x04, 0x00, 0x01, 0x01, 0xFF] = .error .wrongTotal := by rfl

/-! ### One operation each -/

/-- V-RT2. -/
theorem test_rxReset : seen .rxReset { box with headerFilled := 3 } = some ([], s0) := by decide
/-- R145: in mid-frame, and the buffers stay. -/
theorem test_rxReset_data : (out (exec .rxReset (filled 1 4 [9, 8, 7]))).map (fun t => (core t, pl t 3)) =
    some (s0, [9, 8, 7]) := by decide
/-- R131: the fourth magic byte. -/
theorem test_rxByte_magic : (out (exec (.rxByte 0x7E) { box with headerFilled := 3 })).map
    (fun t => (core t, hb t 0, hb t 3)) = some (⟨.collectHeader, 4, 0, 0, 0, 0, 0⟩, 0x7E, 0x7E) := by decide
/-- P4, the last byte: the damaged payload is rescanned and the frame inside it dispatched. -/
theorem test_rxByte_replay :
    seen (.rxByte 0x99) { filled 1 4 [0x00, 0x99, 0x7E, 0x7E, 0x7E, 0x7E, 0x05, 0x06, 0x00, 0x02, 0xFD, 0xFA,
      0x11, 0x22, 0xEE, 0xDD, 0x33, 0xCC, 0x00] with receivedLen := 18 } =
    some ([.payCrc 0xCC66 0xCC99 2, .dispatch 5 6 2 [0x11, 0x22]], s0) := by decide +kernel
/-- V-EN6. -/
theorem test_txEncode : (out (exec (.txEncode true 1 4 1 [9] 13) box)).map
    (fun t => (t.txo, t.dest.readBytes 0 14)) =
    some ([.ok 13], [0x7E, 0x7E, 0x7E, 0x7E, 0x01, 0x04, 0x00, 0x01, 0x01, 0xFE, 0x09, 0xF6, 0xFF, 0x00]) := by
  decide
/-- V-EN2: a capacity of 10 is refused even for a header-only frame (C8). -/
theorem test_txEncode_refused : (out (exec (.txEncode true 1 4 0 [] 10) box)).map
    (fun t => (t.txo, t.dest)) = some ([.invalidArgument], []) := by decide
/-- V-CS4, the largest sum. -/
theorem test_csumHdr : (out (exec (.csumHdr 0xFF 0xFF 0xFFFF) box)).map State.csum = some [0x0303] := by decide
/-- notes/assumptions/8.md, by hand: 0xFCFC + 0xFFFF + 0x0304 = 0x1FFFF; fold 0x10000; fold 0x0001. -/
theorem test_csumHdr_second_fold : (out (exec (.csumHdr 0xFF 0xFF 0x0304) box)).map State.csum =
    some [0xFFFE] := by decide
/-- V-CS12, an odd length. -/
theorem test_csumPay : (out (exec (.csumPay [1, 2, 3, 4, 5]) box)).map State.csum = some [0xF6F9] := by decide
/-- V-CS25: the second fold is needed. -/
theorem test_csumPay_second_fold : (out (exec (.csumPay [0xFF, 0xFF, 0xFF, 0xFF, 0x00, 0x01]) box)).map
    State.csum = some [0xFFFE] := by decide
/-- V-RX1. -/
theorem test_frameH : seen (.frameH 1 4 0x01FF) box = some ([.dispatch 1 4 0 []], s0) := by decide +kernel
/-- V-RS6c: a damaged header that ends in three magic bytes. -/
theorem test_frameH_tail : seen (.frameH 1 4 0x7E7E) box =
    some ([.hdrCrc 0x01FF 0x7E7E], ⟨.searchFlag, 2, 0, 0, 0, 0, 0⟩) := by decide +kernel
/-- V-RX4. -/
theorem test_frameHP : seen (.frameHP 1 4 5 0x01FA [1, 2, 3, 4, 5] 0xF6F9) box =
    some ([.dispatch 1 4 5 [1, 2, 3, 4, 5]], s0) := by decide +kernel
/-- V-RX15 with a damaged checksum: a memdump frame is dropped silently. -/
theorem test_frameHP_memdump : seen (.frameHP 1 0x20 2 0x01E1 [9, 9] 0xF6F7) box = some ([], s0) := by
  decide +kernel
/-- V-RS5. -/
theorem test_rxParse : seen (.rxParse [0x7E, 0x7E, 0x7E, 0x7E, 0x09, 0x7E, 0x7E, 0x7E, 0x7E, 0x01]) box =
    some ([.hdrCrc 0x7B06 0x7E01], ⟨.collectHeader, 5, 0, 0, 0, 0, 0⟩) := by decide +kernel
/-- V-PR7: nested replay. -/
theorem test_rxParse_nested : seen (.rxParse [0x7E, 0x7E, 0x7E, 0x7E, 0x01, 0x04, 0x00, 0x1D, 0x01, 0xE2, 0x55,
      0x7E, 0x7E, 0x7E, 0x7E, 0x03, 0x07, 0x00, 0x10, 0xFF, 0xEB, 0x00, 0x7E, 0x7E, 0x7E, 0x7E, 0x05, 0x06,
      0x00, 0x02, 0xFD, 0xFA, 0x11, 0x22, 0xEE, 0xDD, 0x44, 0xFF, 0xBA, 0xAB, 0x7F]) box =
    some ([.payCrc 0xABFF 0xAB7F 1, .payCrc 0xFFBB 0xFFBA 1, .dispatch 5 6 2 [0x11, 0x22]], s0) := by
  decide +kernel
/-- V-RX10: the largest accepted length. -/
theorem test_hdrchk : seen .hdrchk (window [0x7E, 0x7E, 0x7E, 0x7E, 0x01, 0x04, 0x07, 0xF2, 0xFA, 0x0C]) =
    some ([], ⟨.collectData, 10, 2034, 0, 1, 4, 2034⟩) := by decide
/-- V-RX11: one more is a LEN condition. -/
theorem test_hdrchk_len : seen .hdrchk (window [0x7E, 0x7E, 0x7E, 0x7E, 0x01, 0x04, 0x07, 0xF3, 0xFA, 0x0B]) =
    some ([.len 2035], s0) := by decide
/-- V-EN11's payload and checksum. -/
theorem test_paychk : seen .paychk (filled 2 9 [0x7E, 0x81, 0xFF]) = some ([.dispatch 2 9 1 [0x7E]], s0) := by
  decide
/-- V-PR2: no magic byte among the six bytes. -/
theorem test_paychk_bad : seen .paychk (filled 1 4 [1, 2, 3, 4, 0xFB, 0xF8]) =
    some ([.payCrc 0xFBF9 0xFBF8 6], s0) := by decide
/-- R140: exactly `length` bytes, and the state stays. -/
theorem test_dispatch : seen .dispatch (filled 1 4 [5, 6, 7, 8]) =
    some ([.dispatch 1 4 2 [5, 6]], ⟨.collectData, 10, 2, 4, 1, 4, 2⟩) := by decide
/-- R142. -/
theorem test_resetInt : seen .resetInt (filled 1 4 [5, 6, 7, 8]) = some ([], s0) := by decide
/-- V-RS2: shift from `i = 6`. -/
theorem test_resync_shift :
    (out (exec .resync (window [0x7E, 0x7E, 0x7E, 0x7E, 0x7E, 0x7E, 0x7E, 0x01, 0x04, 0x00]))).map
      (fun t => (core t, t.headerBuf.readBytes 0 7)) =
    some (⟨.collectHeader, 7, 0, 0, 0, 0, 0⟩, [0x7E, 0x7E, 0x7E, 0x7E, 0x01, 0x04, 0x00]) := by decide
/-- V-RS6c: a tail of three. -/
theorem test_resync_tail : seen .resync (window [0x7E, 0x7E, 0x7E, 0x7E, 0x01, 0x04, 0x00, 0x7E, 0x7E, 0x7E]) =
    some ([], ⟨.searchFlag, 3, 0, 0, 0, 0, 0⟩) := by decide
/-- V-PR5: the replay starts at the first magic byte. -/
theorem test_payrescan :
    (out (exec (.payrescan 0xDFDE 0x7E7E) (filled 1 4 [0xA1, 0xA2, 0x7E, 0x7E, 0x7E, 0x7E]))).map
      (fun t => (t.trace, t.queue, core t)) =
    some ([.payCrc 0xDFDE 0x7E7E 2], [0x7E, 0x7E, 0x7E, 0x7E], s0) := by decide
/-- V-EN1's header; the byte behind it stays. -/
theorem test_txFillhdr : (out (exec (.txFillhdr 1 4 0) { box with dest := [(10, 0xAA)] })).map
    (fun t => t.dest.readBytes 0 11) =
    some [0x7E, 0x7E, 0x7E, 0x7E, 0x01, 0x04, 0x00, 0x00, 0x01, 0xFF, 0xAA] := by decide
/-- V-RT5: a step with `rq = 0b00011`. -/
theorem test_step_reset : (out (step { box with
      headerFilled := 2
      inputs := [.ports { PortSample.idle with rq := 0b00011, rxData := 0x7E }] })).map
    (fun t => (core t, t.inputs)) = some (s0, []) := by decide
/-- A table word is what the next step runs. -/
theorem test_withFetchWord : (out (step (box.withFetchWord 80 0x7E7E7E7E0104000001FF))).map State.trace =
    some [.dispatch 1 4 0 []] := by decide +kernel

/-! ### Values that meet the hypotheses of the statements -/

/-- `box` in SearchFlag after `k` magic bytes, with inputs. -/
def between (k : Nat) (xs : List Stimulus) : State := { box with headerFilled := u16 k, inputs := xs }

/-- The invariant holds of these states. -/
theorem inv_between (k : Nat) (hk : k ≤ 3) (xs : List Stimulus) : Inv (between k xs) := by
  have hf : (u16 k).toNat = k := by simp only [u16, BitVec.toNat_ofNat]; omega
  refine ⟨⟨by show cfg.wf; decide, ⟨rfl, rfl, rfl⟩, ?_, by show 0 ≤ 2; decide, fun _ => ⟨?_, rfl, rfl, rfl, rfl, rfl⟩,
    fun h => ?_, fun h => ?_, ⟨rfl, rfl, fun h => ?_⟩⟩, rfl⟩
  · show (u16 k).toNat ≤ 10; omega
  · show (u16 k).toNat ≤ 3; omega
  all_goals exact absurd h (by show RxState.searchFlag ≠ _; decide)

theorem witness_CsumPayAnswersIndexedSum : (List.replicate 65535 (1 : Byte)).length ≤ 65535 :=
  Nat.le_of_eq (List.length_replicate ..)
theorem witness_CsumPayRefusesLongSequence : 65535 < (List.replicate 65536 (1 : Byte)).length := by
  rw [List.length_replicate]; decide
theorem witness_CsumPayAnswersIndexedSum_padding : ([1] : List Byte).length % 2 = 1 ∧ ([1, 2] : List Byte).length % 2 = 0 := by
  decide
theorem witness_AccumulatorNeverOverflows : cfg.wf ∧ (List.replicate 65535 (1 : Byte)).length ≤ 65535 ∧
    (List.replicate 2034 (1 : Byte)).length ≤ 2034 := by
  exact ⟨by decide, Nat.le_of_eq (List.length_replicate ..), Nat.le_of_eq (List.length_replicate ..)⟩
theorem witness_FoldAndNotValues : 0xFFFFFFFF < 2 ^ 32 ∧ 0x1FFFE ≤ 0x1FFFE ∧ 0xFFFF ≤ 0xFFFF := by decide
theorem witness_OnesComplementFacts : 0xFFFF < 2 ^ 32 ∧ 0xFFFF ≠ 0 ∧ 0xFFFF % 0xFFFF = 0 ∧
    (([1, 2] : List Half).map BitVec.toNat).sum = (([3, 0] : List Half).map BitVec.toNat).sum ∧
    ([1, 2] : List Half).Perm [2, 1] ∧ ([1, 2] : List Byte).length ≤ 65535 := by decide
theorem witness_RequestWordSelectsOperations :
    PortSample.idle.rq = 0 ∧ (between 0 [.ports .idle]).inputs = .ports .idle :: [] := by decide
theorem witness_SoftResetBeatsReceive_reset :
    (between 0 [.ports { PortSample.idle with rq := 0b00011 }]).inputs =
      .ports { PortSample.idle with rq := 0b00011 } :: [] ∧
    (0b00011 : BitVec 5).getLsbD 0 = true ∧ (0b00011 : BitVec 5).getLsbD 2 = false ∧
    (0b00011 : BitVec 5).getLsbD 3 = false := by decide
theorem witness_SoftResetBeatsReceive_mode : (0b10010 : BitVec 5).getLsbD 3 = false := by decide
theorem witness_DecodeEncodeAgree : Instr.wf (.frameHP 1 4 1 0x01FE [9] 0xF6FF) = true ∧
    encode (.frameHP 1 4 1 0x01FE [9] 0xF6FF) = some (.frame
      [0x7E, 0x7E, 0x7E, 0x7E, 0x01, 0x04, 0x00, 0x01, 0x01, 0xFE, 0x09, 0xF6, 0xFF]) := by decide
theorem witness_EncodeDecodeFrameAgree :
    decodeFrame [0x7E, 0x7E, 0x7E, 0x7E, 0x01, 0x04, 0x00, 0x00, 0x01, 0xFF] = .ok (.frameH 1 4 0x01FF) := by rfl
theorem witness_InternalOperationsHaveNoSelector : Instr.rxReset ∈
    decode (.ports { PortSample.idle with rq := 0b00001 }) := by decide
theorem witness_StepRunsDecodedOperations : (between 0 [.chunk [1]]).inputs = .chunk [1] :: [] ∧
    decode (.chunk [1]) = [.rxParse [1]] ∧ (between 0 []).inputs = [] := by decide
theorem witness_OfferedWordRunsNext :
    tableStimulus 8 0b00001 = some (.ports { PortSample.idle with rq := 0b00001 }) ∧
    decode (.ports { PortSample.idle with rq := 0b00001 }) = [.rxReset] := by decide
theorem witness_SearchFlagByte_other : (0x12 : Byte) ≠ magic ∧ (between 3 []).state = .searchFlag ∧
    (between 3 []).headerFilled.toNat ≤ 3 ∧ (between 3 []).headerBuf.wf = true := by decide
theorem witness_SearchFlagByte_third : (0x7E : Byte) = magic ∧ (between 2 []).state = .searchFlag ∧
    (between 2 []).headerFilled.toNat < 3 ∧ (between 2 []).headerBuf.wf = true := by decide
theorem witness_SearchFlagByte_fourth : (0x7E : Byte) = magic ∧ (between 3 []).state = .searchFlag ∧
    (between 3 []).headerFilled = 3 ∧ (between 3 []).headerBuf.wf = true := by decide

/-- `box` in CollectHeader with `k` bytes. -/
def collecting (k : Nat) : State := { box with state := .collectHeader, headerFilled := u16 k }

theorem witness_CollectHeaderByte_ninth : (collecting 8).state = .collectHeader ∧
    (collecting 8).headerFilled.toNat < 9 ∧ (collecting 8).headerBuf.wf = true := by decide
theorem witness_CollectHeaderByte_tenth : (collecting 9).state = .collectHeader ∧
    (collecting 9).headerFilled = 9 ∧ (collecting 9).headerBuf.wf = true := by decide

/-- `box` in CollectData with `target` expected and `k` bytes received. -/
def receiving (target k : Nat) : State :=
  { box with
    state := .collectData, headerFilled := 10, targetLen := u16 target
    receivedLen := u16 k, cmdLength := u16 target }

theorem witness_CollectDataByte_more : (receiving 2034 2034).state = .collectData ∧
    (receiving 2034 2034).receivedLen.toNat < (receiving 2034 2034).targetLen.toNat + 1 ∧
    (receiving 2034 2034).targetLen.toNat + 2 ≤ (receiving 2034 2034).cfg.payloadCap ∧
    (receiving 2034 2034).cfg.payloadCap ≤ 65535 ∧ (receiving 2034 2034).payload.wf = true := by decide
theorem witness_CollectDataByte_last : (receiving 2034 2035).state = .collectData ∧
    (receiving 2034 2035).receivedLen.toNat = (receiving 2034 2035).targetLen.toNat + 1 ∧
    (receiving 2034 2035).targetLen.toNat + 2 ≤ (receiving 2034 2035).cfg.payloadCap ∧
    (receiving 2034 2035).cfg.payloadCap ≤ 65535 ∧ (receiving 2034 2035).payload.wf = true := by decide
theorem witness_ReplayIsReception : (potential { box with queue := [0x7E, 1] } + 1) ^ 2 ≤ 9 := by decide
theorem witness_ReceptionIsTotal : Inv (between 3 []) := inv_between 3 (by decide) []
theorem witness_LoopBoundSuffices : Inv (between 0 []) := inv_between 0 (by decide) []
theorem witness_FramesAreReceivedAsBytes :
    (between 0 [.frame [1, 2]]).inputs = .frame [1, 2] :: [] := by decide

theorem witness_HdrchkOutcomes_crc :
    headerChecksum (hb (window [0x7E, 0x7E, 0x7E, 0x7E, 1, 4, 0, 0, 1, 0xFE]) 4)
      (hb (window [0x7E, 0x7E, 0x7E, 0x7E, 1, 4, 0, 0, 1, 0xFE]) 5) 0 ≠
    be16 (hb (window [0x7E, 0x7E, 0x7E, 0x7E, 1, 4, 0, 0, 1, 0xFE]) 8)
      (hb (window [0x7E, 0x7E, 0x7E, 0x7E, 1, 4, 0, 0, 1, 0xFE]) 9) := by decide
theorem witness_HdrchkOutcomes_empty :
    be16 (hb (window [0x7E, 0x7E, 0x7E, 0x7E, 1, 4, 0, 0, 1, 0xFF]) 6)
      (hb (window [0x7E, 0x7E, 0x7E, 0x7E, 1, 4, 0, 0, 1, 0xFF]) 7) = 0 ∧
    headerChecksum (hb (window [0x7E, 0x7E, 0x7E, 0x7E, 1, 4, 0, 0, 1, 0xFF]) 4)
      (hb (window [0x7E, 0x7E, 0x7E, 0x7E, 1, 4, 0, 0, 1, 0xFF]) 5) 0 =
    be16 (hb (window [0x7E, 0x7E, 0x7E, 0x7E, 1, 4, 0, 0, 1, 0xFF]) 8)
      (hb (window [0x7E, 0x7E, 0x7E, 0x7E, 1, 4, 0, 0, 1, 0xFF]) 9) := by decide
theorem witness_HdrchkOutcomes_accepted :
    be16 (hb (window [0x7E, 0x7E, 0x7E, 0x7E, 1, 4, 7, 0xF2, 0xFA, 0x0C]) 6)
      (hb (window [0x7E, 0x7E, 0x7E, 0x7E, 1, 4, 7, 0xF2, 0xFA, 0x0C]) 7) = 2034 ∧
    headerChecksum (hb (window [0x7E, 0x7E, 0x7E, 0x7E, 1, 4, 7, 0xF2, 0xFA, 0x0C]) 4)
      (hb (window [0x7E, 0x7E, 0x7E, 0x7E, 1, 4, 7, 0xF2, 0xFA, 0x0C]) 5) 2034 =
    be16 (hb (window [0x7E, 0x7E, 0x7E, 0x7E, 1, 4, 7, 0xF2, 0xFA, 0x0C]) 8)
      (hb (window [0x7E, 0x7E, 0x7E, 0x7E, 1, 4, 7, 0xF2, 0xFA, 0x0C]) 9) ∧
    (2034 : Half).toNat ≤ box.cfg.maxPayloadLen := by decide
theorem witness_HdrchkOutcomes_refused :
    be16 (hb (window [0x7E, 0x7E, 0x7E, 0x7E, 1, 4, 7, 0xF3, 0xFA, 0x0B]) 6)
      (hb (window [0x7E, 0x7E, 0x7E, 0x7E, 1, 4, 7, 0xF3, 0xFA, 0x0B]) 7) = 2035 ∧
    headerChecksum (hb (window [0x7E, 0x7E, 0x7E, 0x7E, 1, 4, 7, 0xF3, 0xFA, 0x0B]) 4)
      (hb (window [0x7E, 0x7E, 0x7E, 0x7E, 1, 4, 7, 0xF3, 0xFA, 0x0B]) 5) 2035 =
    be16 (hb (window [0x7E, 0x7E, 0x7E, 0x7E, 1, 4, 7, 0xF3, 0xFA, 0x0B]) 8)
      (hb (window [0x7E, 0x7E, 0x7E, 0x7E, 1, 4, 7, 0xF3, 0xFA, 0x0B]) 9) ∧
    box.cfg.maxPayloadLen < (2035 : Half).toNat := by decide

/-- What the three clauses of `PAYCHK` share. -/
theorem witness_PaychkOutcomes_good :
    (filled 2 9 [0x7E, 0x81, 0xFF]).targetLen.toNat + 2 ≤ (filled 2 9 [0x7E, 0x81, 0xFF]).cfg.payloadCap ∧
    (filled 2 9 [0x7E, 0x81, 0xFF]).cmdLength.toNat ≤ (filled 2 9 [0x7E, 0x81, 0xFF]).cfg.payloadCap ∧
    payloadChecksum (pl (filled 2 9 [0x7E, 0x81, 0xFF]) 1) =
      be16 ((filled 2 9 [0x7E, 0x81, 0xFF]).payload.read 1) ((filled 2 9 [0x7E, 0x81, 0xFF]).payload.read 2) := by
  decide
theorem witness_PaychkOutcomes_memdump :
    (filled 1 0x21 [9, 0, 0]).targetLen.toNat + 2 ≤ (filled 1 0x21 [9, 0, 0]).cfg.payloadCap ∧
    (filled 1 0x21 [9, 0, 0]).cmdLength.toNat ≤ (filled 1 0x21 [9, 0, 0]).cfg.payloadCap ∧
    payloadChecksum (pl (filled 1 0x21 [9, 0, 0]) 1) ≠
      be16 ((filled 1 0x21 [9, 0, 0]).payload.read 1) ((filled 1 0x21 [9, 0, 0]).payload.read 2) ∧
    (filled 1 0x21 [9, 0, 0]).cmdSubtype = (filled 1 0x21 [9, 0, 0]).cfg.memdump1 := by decide
theorem witness_PaychkOutcomes_rescan :
    (filled 1 4 [9, 0, 0]).targetLen.toNat + 2 ≤ (filled 1 4 [9, 0, 0]).cfg.payloadCap ∧
    (filled 1 4 [9, 0, 0]).cmdLength.toNat ≤ (filled 1 4 [9, 0, 0]).cfg.payloadCap ∧
    payloadChecksum (pl (filled 1 4 [9, 0, 0]) 1) ≠
      be16 ((filled 1 4 [9, 0, 0]).payload.read 1) ((filled 1 4 [9, 0, 0]).payload.read 2) ∧
    (filled 1 4 [9, 0, 0]).cmdSubtype ≠ (filled 1 4 [9, 0, 0]).cfg.memdump0 ∧
    (filled 1 4 [9, 0, 0]).cmdSubtype ≠ (filled 1 4 [9, 0, 0]).cfg.memdump1 := by decide
theorem witness_DispatchEmitsCommand :
    ({ box with cmdLength := 2036 } : State).cmdLength.toNat ≤ box.cfg.payloadCap := by decide

/-- V-RS1's window: the run nearest the end ends at 4. -/
theorem witness_ResyncShiftsLatestRun_first :
    (window [0x7E, 0x7E, 0x7E, 0x7E, 0x7E, 1, 4, 0, 0, 1]).headerBuf.wf = true ∧
    MagicRun (window [0x7E, 0x7E, 0x7E, 0x7E, 0x7E, 1, 4, 0, 0, 1]) 4 ∧
    ∀ j, 4 < j → j ≤ 9 → ¬ MagicRun (window [0x7E, 0x7E, 0x7E, 0x7E, 0x7E, 1, 4, 0, 0, 1]) j := by
  refine ⟨by decide, by unfold MagicRun; decide, fun j h4 h9 => ?_⟩
  obtain rfl | rfl | rfl | rfl | rfl : j = 5 ∨ j = 6 ∨ j = 7 ∨ j = 8 ∨ j = 9 := by omega
  all_goals unfold MagicRun; decide
/-- V-RS4's window: the run at the very end. -/
theorem witness_ResyncShiftsLatestRun_last :
    (window [0x7E, 0x7E, 0x7E, 0x7E, 1, 4, 0x7E, 0x7E, 0x7E, 0x7E]).headerBuf.wf = true ∧
    MagicRun (window [0x7E, 0x7E, 0x7E, 0x7E, 1, 4, 0x7E, 0x7E, 0x7E, 0x7E]) 9 ∧
    ∀ j, 9 < j → j ≤ 9 →
      ¬ MagicRun (window [0x7E, 0x7E, 0x7E, 0x7E, 1, 4, 0x7E, 0x7E, 0x7E, 0x7E]) j := by
  refine ⟨by decide, by unfold MagicRun; decide, fun j h4 h9 => absurd h4 (by omega)⟩
/-- V-RS6b's window: a tail of one. -/
theorem witness_ResyncKeepsTailRun :
    (∀ i, 4 ≤ i → i ≤ 9 → ¬ MagicRun (window [0x7E, 0x7E, 0x7E, 0x7E, 1, 4, 0, 0, 1, 0x7E]) i) ∧
    hb (window [0x7E, 0x7E, 0x7E, 0x7E, 1, 4, 0, 0, 1, 0x7E]) 9 = magic := by
  refine ⟨fun j h4 h9 => ?_, by decide⟩
  obtain rfl | rfl | rfl | rfl | rfl | rfl : j = 4 ∨ j = 5 ∨ j = 6 ∨ j = 7 ∨ j = 8 ∨ j = 9 := by omega
  all_goals unfold MagicRun; decide
/-- V-RS6d's window. -/
theorem witness_ResyncDropsWindow :
    (∀ i, 4 ≤ i → i ≤ 9 → ¬ MagicRun (window [0x7E, 0x7E, 0x7E, 0x7E, 1, 4, 0, 0, 1, 0xFE]) i) ∧
    hb (window [0x7E, 0x7E, 0x7E, 0x7E, 1, 4, 0, 0, 1, 0xFE]) 9 ≠ magic := by
  refine ⟨fun j h4 h9 => ?_, by decide⟩
  obtain rfl | rfl | rfl | rfl | rfl | rfl : j = 4 ∨ j = 5 ∨ j = 6 ∨ j = 7 ∨ j = 8 ∨ j = 9 := by omega
  all_goals unfold MagicRun; decide

theorem witness_PayrescanKeepsFromFirstMagic_first :
    (filled 1 4 [0x7E, 1, 2]).targetLen.toNat + 2 ≤ (filled 1 4 [0x7E, 1, 2]).cfg.payloadCap ∧
    0 < (filled 1 4 [0x7E, 1, 2]).targetLen.toNat + 2 ∧ (filled 1 4 [0x7E, 1, 2]).payload.read 0 = magic := by
  decide
theorem witness_PayrescanKeepsFromFirstMagic_none :
    (filled 1 4 [9, 1, 2]).targetLen.toNat + 2 ≤ (filled 1 4 [9, 1, 2]).cfg.payloadCap ∧
    3 = (filled 1 4 [9, 1, 2]).targetLen.toNat + 2 ∧
    ∀ j < 3, (filled 1 4 [9, 1, 2]).payload.read j ≠ magic := by decide
theorem witness_AccessOutsideBufferFaults :
    (receiving 2035 0).cfg.payloadCap < (receiving 2035 0).targetLen.toNat + 2 ∧
    (receiving 2037 0).cfg.payloadCap < (receiving 2037 0).cmdLength.toNat ∧
    (collecting 10).state = .collectHeader ∧ 10 ≤ (collecting 10).headerFilled.toNat ∧
    (receiving 2034 2036).state = .collectData ∧
    (receiving 2034 2036).cfg.payloadCap ≤ (receiving 2034 2036).receivedLen.toNat := by decide

/-- What the statements about whole frames share. -/
theorem between_zero : Inv (between 0 []) ∧ (between 0 []).state = .searchFlag ∧ (between 0 []).headerFilled = 0 :=
  ⟨inv_between 0 (by decide) [], rfl, rfl⟩

theorem witness_HeaderOnlyFrameDispatches :
    Inv (between 0 []) ∧ (between 0 []).state = .searchFlag ∧ (between 0 []).headerFilled = 0 := between_zero
theorem witness_PayloadFrameDispatches : Inv (between 0 []) ∧ (between 0 []).state = .searchFlag ∧
    (between 0 []).headerFilled = 0 ∧ (2034 : Half) ≠ 0 ∧
    (2034 : Half).toNat ≤ (between 0 []).cfg.maxPayloadLen ∧
    (List.replicate 2034 (7 : Byte)).length = (2034 : Half).toNat := by
  refine ⟨between_zero.1, rfl, rfl, by decide, by decide, ?_⟩
  rw [List.length_replicate]
  rfl
theorem witness_DamagedHeaderIsNotDispatched : Inv (between 0 []) ∧ (between 0 []).state = .searchFlag ∧
    (between 0 []).headerFilled = 0 ∧ (0x01FE : Half) ≠ headerChecksum 1 4 0 ∧ (1 : Byte) ≠ magic ∧
    lo8 0x01FE ≠ magic := ⟨between_zero.1, rfl, rfl, by decide, by decide, by decide⟩
theorem witness_OversizedHeaderIsRefused : Inv (between 0 []) ∧ (between 0 []).state = .searchFlag ∧
    (between 0 []).headerFilled = 0 ∧ (between 0 []).cfg.maxPayloadLen < (2035 : Half).toNat :=
  ⟨between_zero.1, rfl, rfl, by decide⟩
theorem witness_DamagedPayloadIsNotDispatched_memdump : Inv (between 0 []) ∧
    (between 0 []).state = .searchFlag ∧ (between 0 []).headerFilled = 0 ∧ (1 : Half) ≠ 0 ∧
    (1 : Half).toNat ≤ (between 0 []).cfg.maxPayloadLen ∧ ([9] : List Byte).length = (1 : Half).toNat ∧
    (0xF6FE : Half) ≠ payloadChecksum [9] ∧ (0x20 : Byte) = (between 0 []).cfg.memdump0 :=
  ⟨between_zero.1, rfl, rfl, by decide, by decide, rfl, by decide, rfl⟩
theorem witness_DamagedPayloadIsNotDispatched_event : Inv (between 0 []) ∧
    (between 0 []).state = .searchFlag ∧ (between 0 []).headerFilled = 0 ∧ (1 : Half) ≠ 0 ∧
    (1 : Half).toNat ≤ (between 0 []).cfg.maxPayloadLen ∧ ([9] : List Byte).length = (1 : Half).toNat ∧
    (0xF6FE : Half) ≠ payloadChecksum [9] ∧ (4 : Byte) ≠ (between 0 []).cfg.memdump0 ∧
    (4 : Byte) ≠ (between 0 []).cfg.memdump1 ∧ (∀ b ∈ ([9] : List Byte), b ≠ magic) ∧
    hi8 0xF6FE ≠ magic ∧ lo8 0xF6FE ≠ magic :=
  ⟨between_zero.1, rfl, rfl, by decide, by decide, rfl, by decide, by decide, by decide, by decide, by decide,
    by decide⟩
/-- V-PR3's frame: the first magic byte is the first byte behind the header. -/
theorem witness_DamagedPayloadIsNotDispatched_replay_first : (4 : Half).toNat ≤ (between 0 []).cfg.maxPayloadLen ∧
    ([0x7E, 0x7E, 0x7E, 0x7E] : List Byte).length = (4 : Half).toNat ∧
    (0x0302 : Half) ≠ payloadChecksum [0x7E, 0x7E, 0x7E, 0x7E] ∧ 0 < (4 : Half).toNat + 2 ∧
    ([0x7E, 0x7E, 0x7E, 0x7E] ++ [hi8 0x0302, lo8 0x0302] : List Byte).getD 0 0 = magic ∧
    ∀ j < 0, ([0x7E, 0x7E, 0x7E, 0x7E] ++ [hi8 0x0302, lo8 0x0302] : List Byte).getD j 0 ≠ magic := by decide
/-- The first magic byte is the low byte of the checksum. -/
theorem witness_DamagedPayloadIsNotDispatched_replay_last : (1 : Half).toNat ≤ (between 0 []).cfg.maxPayloadLen ∧
    ([9] : List Byte).length = (1 : Half).toNat ∧ (0xF67E : Half) ≠ payloadChecksum [9] ∧
    2 < (1 : Half).toNat + 2 ∧ ([9] ++ [hi8 0xF67E, lo8 0xF67E] : List Byte).getD 2 0 = magic ∧
    ∀ j < 2, ([9] ++ [hi8 0xF67E, lo8 0xF67E] : List Byte).getD j 0 ≠ magic := by decide
theorem witness_EncodeThenParseRoundTrips_empty : Inv (between 0 []) ∧ (between 0 []).state = .searchFlag ∧
    (between 0 []).headerFilled = 0 ∧ box.cfg = (between 0 []).cfg ∧ box.dest.wf = true ∧
    (0 : Half).toNat ≤ box.cfg.maxPayloadLen ∧ (0 : Half).toNat ≤ ([] : List Byte).length ∧ 10 < 11 :=
  ⟨between_zero.1, rfl, rfl, rfl, rfl, by decide, by decide, by decide⟩
theorem witness_EncodeThenParseRoundTrips_payload : Inv (between 0 []) ∧ (between 0 []).state = .searchFlag ∧
    (between 0 []).headerFilled = 0 ∧ box.cfg = (between 0 []).cfg ∧ box.dest.wf = true ∧
    (1 : Half).toNat ≤ box.cfg.maxPayloadLen ∧ (1 : Half).toNat ≤ ([9] : List Byte).length ∧ 10 < 13 ∧
    12 + (1 : Half).toNat ≤ 13 :=
  ⟨between_zero.1, rfl, rfl, rfl, rfl, by decide, by decide, by decide, by decide⟩
/-- What the two formats share: the state after one, two and three magic bytes. -/
theorem witness_PartialRunRealigns_state : ∀ k, 1 ≤ k → k ≤ 3 → Inv (between k []) ∧
    (between k []).state = .searchFlag ∧ 1 ≤ (between k []).headerFilled.toNat ∧
    (3 : Half).toNat ≤ (between k []).cfg.maxPayloadLen := by
  intro k h1 h3
  refine ⟨inv_between _ h3 [], rfl, ?_, by show _ ≤ cfg.maxPayloadLen; decide⟩
  show 1 ≤ (u16 k).toNat
  simp only [u16, BitVec.toNat_ofNat]; omega
/-- The header-only frame (1, 4). -/
theorem witness_PartialRunRealigns_header : ∀ k, 1 ≤ k → k ≤ 3 → (1 : Byte) ≠ magic ∧
    ¬ ((between k []).headerFilled = 1 ∧ (4 : Byte) = magic ∧ (0 : Half) = be16 magic magic ∧
        hi8 (headerChecksum 1 4 0) = magic) ∧
    ∃ w, w = (List.replicate (between k []).headerFilled.toNat magic ++
      headerBytes 1 4 0 (headerChecksum 1 4 0)).take 10 ∧
    headerChecksum (w.getD 4 0) (w.getD 5 0) (be16 (w.getD 6 0) (w.getD 7 0)) ≠
      be16 (w.getD 8 0) (w.getD 9 0) := by
  intro k h1 h3
  obtain rfl | rfl | rfl : k = 1 ∨ k = 2 ∨ k = 3 := by omega
  all_goals exact ⟨by decide, by decide, _, rfl, by decide⟩
/-- V-RS7's frame, of three payload bytes. -/
theorem witness_PartialRunRealigns_payload : ∀ k, 1 ≤ k → k ≤ 3 → (1 : Byte) ≠ magic ∧
    (3 : Half) ≠ 0 ∧ ([0xAA, 0xBB, 0xCC] : List Byte).length = (3 : Half).toNat ∧
    ¬ ((between k []).headerFilled = 1 ∧ (4 : Byte) = magic ∧ (3 : Half) = be16 magic magic ∧
        hi8 (headerChecksum 1 4 3) = magic) ∧
    ∃ w, w = (List.replicate (between k []).headerFilled.toNat magic ++
      headerBytes 1 4 3 (headerChecksum 1 4 3)).take 10 ∧
    headerChecksum (w.getD 4 0) (w.getD 5 0) (be16 (w.getD 6 0) (w.getD 7 0)) ≠
      be16 (w.getD 8 0) (w.getD 9 0) := by
  intro k h1 h3
  obtain rfl | rfl | rfl : k = 1 ∨ k = 2 ∨ k = 3 := by omega
  all_goals exact ⟨by decide, by decide, rfl, by decide, _, rfl, by decide⟩
/-- The exception of notes/assumptions/9.md exists: type 0x06 with the other four bytes magic, worked out by
hand: 0xFCFC + 0x067E + 0x7E7E = 0x181F8; fold 0x81F9; not 0x7E06. -/
theorem test_partial_exception : headerChecksum 0x06 magic (be16 magic magic) = 0x7E06 := by decide
theorem witness_TxEncodeWritesFrameOrRefuses_accepted : box.dest.wf = true ∧ 10 < 13 ∧
    (1 : Half).toNat ≤ box.cfg.maxPayloadLen ∧ 12 + (1 : Half).toNat ≤ 13 ∧
    (1 : Half).toNat ≤ ([9, 8] : List Byte).length := by decide
theorem witness_TxEncodeWritesFrameOrRefuses_refused : 10 ≤ 10 ∧
    box.cfg.maxPayloadLen < (2035 : Half).toNat ∧ ((1 : Half) ≠ 0 ∧ 12 < 12 + (1 : Half).toNat) := by decide
theorem witness_TxFillhdrWritesHeader : box.dest.wf = true := by decide
theorem witness_EncodedLengthFitsPort : box.cfg.wf ∧ ∃ s', exec (.txEncode true 1 4 0 [] 11) box = .next s' ∧
    s'.txo = box.txo ++ [.ok 10] := ⟨by decide, _, rfl, rfl⟩
theorem witness_EncoderIsStateless : (between 0 []).cfg = (between 3 []).cfg ∧
    (between 0 []).dest = (between 3 []).dest := by decide
theorem witness_StepKeepsInvariant : Inv (between 0 [.ports { PortSample.idle with rq := 0b01001 }]) ∧
    ∃ t, step (between 0 [.ports { PortSample.idle with rq := 0b01001 }]) = .next t :=
  ⟨inv_between 0 (by decide) _, _, rfl⟩
theorem witness_StepNeverStops : Inv (between 0 [.ports .idle]) ∧
    ∀ x ∈ (between 0 [.ports .idle]).inputs.head?, x.wf = true := by
  refine ⟨inv_between 0 (by decide) _, fun x hx => ?_⟩
  obtain rfl : Stimulus.ports .idle = x := by simpa [between] using hx
  decide
theorem witness_ParametersNeverChange : ∃ t, step (between 0 [.ports .idle]) = .next t := ⟨_, rfl⟩
theorem witness_OutputsOnlyGrow :
    ∃ t, step (between 0 [.ports { PortSample.idle with rq := 0b01000 }]) = .next t ∧ t.csum = [0x0303] :=
  ⟨_, rfl, by decide⟩
theorem witness_UnitsKeepApart : (∃ t, exec .rxReset box = .next t) ∧ (∃ t, exec (.csumHdr 1 4 0) box = .next t) ∧
    ∃ t, exec (.txFillhdr 1 4 0) box = .next t := ⟨⟨_, rfl⟩, ⟨_, rfl⟩, _, rfl⟩
theorem witness_IndependentPortsCommute_receive : Instr.frameH 1 4 0x01FF = .frameH 1 4 0x01FF ∧
    ∃ p : List Byte, p.length ≤ 65535 ∧ Instr.csumPay [1] = .csumPay p := ⟨rfl, [1], by decide, rfl⟩
theorem witness_IndependentPortsCommute_encode :
    (∃ v t u n p c, Instr.txEncode true 1 4 0 [] 11 = .txEncode v t u n p c) ∧
    ∃ p, Instr.csumPay [1] = .csumPay p := ⟨⟨_, _, _, _, _, _, rfl⟩, _, rfl⟩
/-- Two states that differ in a stale byte of each buffer. -/
theorem witness_StaleBytesAreUnobservable :
    SameView (between 0 []) { between 0 [] with headerBuf := [(5, 0xAA)], payload := [(7, 0xBB)] } ∧
    Inv (between 0 []) ∧ Inv { between 0 [] with headerBuf := [(5, 0xAA)], payload := [(7, 0xBB)] } := by
  obtain ⟨h, hq⟩ := inv_between 0 (by decide) []
  refine ⟨⟨rfl, fun e => ?_, fun e => ?_⟩, ⟨h, hq⟩,
    ⟨h.cfg, ⟨rfl, rfl, rfl⟩, h.inv1, h.inv2, h.inv3, fun e => ?_, fun e => ?_, ⟨rfl, rfl, fun e => ?_⟩⟩, hq⟩
  all_goals exact absurd e (by show RxState.searchFlag ≠ _; decide)
/-- V-RX1 offered to a state between frames: the step's trace holds the dispatch. -/
theorem witness_DispatchedPayloadIsBounded :
    Inv (between 0 [.frame [0x7E, 0x7E, 0x7E, 0x7E, 0x01, 0x04, 0x00, 0x00, 0x01, 0xFF]]) ∧
    ∃ t, step (between 0 [.frame [0x7E, 0x7E, 0x7E, 0x7E, 0x01, 0x04, 0x00, 0x00, 0x01, 0xFF]]) = .next t ∧
      t.trace = [.dispatch 1 4 0 []] :=
  ⟨inv_between 0 (by decide) _, _, rfl, by decide +kernel⟩

end Sys2Proof.Tests
end

section
/-! SUPPORT. How the encoder's answer, the decoded operations and one step are read off the model (R11, R12, R89,
R90, R182), and the statements of spec/00_scope.md settled from that. -/

namespace Sys2Proof.Machine

/-! ### The encoder's answer -/

/-- R182: an `Ok` of `TX.ENCODE` says that all four tests passed and counts the bytes of the frame. -/
theorem encodedLen_of_execTxEncode {v : Bool} {t u : Byte} {n : Half} {p : List Byte} {cap len : Nat}
    {s s' : State} (h : execTxEncode v t u n p cap s = .next s') (hr : s'.txo = s.txo ++ [.ok len]) :
    encodeAccepted s.cfg v n cap = true ∧ len = if n = 0 then 10 else 12 + n.toNat := by
  unfold execTxEncode at h
  split at h
  next ha =>
    refine ⟨ha, ?_⟩
    split at h
    next h0 =>
      cases h
      simpa [h0, fillHeader] using hr.symm
    next h0 =>
      cases h
      rw [if_neg h0]
      simpa [fillHeader, fillPayload, hdrLen, crcLen] using hr.symm
  next =>
    cases h
    simp at hr

/-- R6: `LEN_W` bits hold the length of the longest frame. -/
theorem maxFrameLen_lt_two_pow_lenW {c : Config} (h : c.wf) : 12 + c.maxPayloadLen < 2 ^ c.lenW := by
  obtain ⟨-, -, -, -, hmax, -, hlen⟩ := h
  calc 12 + c.maxPayloadLen < 2 ^ 17 := by omega
    _ ≤ 2 ^ c.lenW := Nat.pow_le_pow_right (by omega) hlen

/-- Settles O49: each bound is one of the encoder's tests. -/
theorem encodedLengthFitsPort : Obligations.EncodedLengthFitsPort := by
  intro v t u n p cap s s' len hc h hr
  obtain ⟨ha, hlen⟩ := encodedLen_of_execTxEncode h hr
  obtain ⟨-, hcap, hmax, hfits⟩ := encodeAccepted_iff.1 ha
  obtain ⟨hframe, hport⟩ : len ≤ 12 + s.cfg.maxPayloadLen ∧ len ≤ cap := by
    by_cases h0 : n = 0
    · rw [if_pos h0] at hlen
      omega
    · have := hfits h0
      rw [if_neg h0] at hlen
      omega
  exact ⟨hframe, hport, hframe.trans_lt (maxFrameLen_lt_two_pow_lenW hc)⟩

/-! ### The decoded operations -/

/-- R89: the operations of a request word, each with its test. -/
theorem mem_decodePorts {p : PortSample} {i : Instr} :
    i ∈ decodePorts p ↔
      (requests 0b00001 0b00001 p.rq = true ∧ i = .rxReset) ∨
      (requests 0b00010 0b00011 p.rq = true ∧ i = .rxByte p.rxData) ∨
      (requests 0b00100 0b00100 p.rq = true ∧
        i = .txEncode p.cmdValid p.txType p.txSubtype p.txLength p.txpl p.destCapacity) ∨
      (requests 0b01000 0b11000 p.rq = true ∧ i = .csumHdr p.csType p.csSubtype p.csLength) ∨
      (requests 0b11000 0b11000 p.rq = true ∧ i = .csumPay p.csData) := by
  simp [decodePorts]

/-- R90, R97: when bytes are a frame, and which frame they are. -/
theorem decodeFrame_cases {bs : List Byte} {i : Instr} (h : decodeFrame bs = .ok i) :
    10 ≤ bs.length ∧ bs.take 4 = [magic, magic, magic, magic] ∧
    ((be16 (byteAt bs 6) (byteAt bs 7) = 0 ∧ bs.length = 10 ∧
        i = .frameH (byteAt bs 4) (byteAt bs 5) (be16 (byteAt bs 8) (byteAt bs 9))) ∨
      ∃ n : Half, n = be16 (byteAt bs 6) (byteAt bs 7) ∧ n ≠ 0 ∧ bs.length = 12 + n.toNat ∧
        i = .frameHP (byteAt bs 4) (byteAt bs 5) n (be16 (byteAt bs 8) (byteAt bs 9))
          ((bs.drop 10).take n.toNat)
          (be16 (byteAt bs (10 + n.toNat)) (byteAt bs (11 + n.toNat)))) := by
  simp only [decodeFrame] at h
  split at h
  · cases h
  next hlen =>
    split at h
    · cases h
    next hmagic =>
      refine ⟨by omega, not_not.1 hmagic, ?_⟩
      split at h
      next h0 =>
        split at h
        next h10 => exact .inl ⟨h0, h10, by cases h; rfl⟩
        · cases h
      next h0 =>
        split at h
        next htotal => exact .inr ⟨_, rfl, h0, htotal, by cases h; rfl⟩
        · cases h

/-- R12: no request word selects an internal micro-operation. -/
theorem not_isInternal_of_mem_decodePorts {p : PortSample} {i : Instr} (h : i ∈ decodePorts p) :
    i.isInternal = false := by
  obtain ⟨-, rfl⟩ | ⟨-, rfl⟩ | ⟨-, rfl⟩ | ⟨-, rfl⟩ | ⟨-, rfl⟩ := mem_decodePorts.1 h <;> rfl

/-- R12: no frame is an internal micro-operation. -/
theorem not_isInternal_of_decodeFrame {bs : List Byte} {i : Instr} (h : decodeFrame bs = .ok i) :
    i.isInternal = false := by
  obtain ⟨-, -, ⟨-, -, rfl⟩ | ⟨n, -, -, -, rfl⟩⟩ := decodeFrame_cases h <;> rfl

/-- R12: no stimulus selects an internal micro-operation. -/
theorem not_isInternal_of_mem_decode {x : Stimulus} {i : Instr} (h : i ∈ decode x) :
    i.isInternal = false := by
  cases x with
  | ports p => exact not_isInternal_of_mem_decodePorts h
  | chunk bs =>
    obtain rfl := List.mem_singleton.1 h
    rfl
  | frame bs =>
    simp only [decode] at h
    split at h
    next hf =>
      obtain rfl := List.mem_singleton.1 h
      exact not_isInternal_of_decodeFrame hf
    next =>
      obtain rfl := List.mem_singleton.1 h
      rfl

/-- R12: the per-operation laws of `Laws.Selector` together. -/
theorem encode_eq_none_iff : ∀ i : Instr, encode i = none ↔ i.isInternal = true
  | .rxReset => Laws.Selector.rxReset
  | .rxByte .. => Laws.Selector.rxByte _
  | .txEncode .. => Laws.Selector.txEncode _ _ _ _ _ _
  | .csumHdr .. => Laws.Selector.csumHdr _ _ _
  | .csumPay .. => Laws.Selector.csumPay _
  | .frameH .. => Laws.Selector.frameH _ _ _
  | .frameHP .. => Laws.Selector.frameHP _ _ _ _ _ _
  | .rxParse .. => Laws.Selector.rxParse _
  | .hdrchk => Laws.Selector.hdrchk
  | .paychk => Laws.Selector.paychk
  | .dispatch => Laws.Selector.dispatch
  | .resetInt => Laws.Selector.resetInt
  | .resync => Laws.Selector.resync
  | .payrescan .. => Laws.Selector.payrescan _ _
  | .txFillhdr .. => Laws.Selector.txFillhdr _ _ _

/-- Settles O15: what is decoded is not internal, and only internal operations lack an encoding. -/
theorem internalOperationsHaveNoSelector : Obligations.InternalOperationsHaveNoSelector := by
  intro x i h
  have hi := not_isInternal_of_mem_decode h
  refine ⟨hi, fun hnone => ?_⟩
  rw [(encode_eq_none_iff i).1 hnone] at hi
  cases hi

/-! ### Fields -/

/-- Settles O9, by the laws of field assembly. -/
theorem fieldsAreBigEndian : Obligations.FieldsAreBigEndian :=
  ⟨fun a b => ⟨toNat_be16 a b, hi8_be16 a b, lo8_be16 a b⟩,
    fun v => ⟨toNat_hi8 v, toNat_lo8 v, be16_hi8_lo8 v⟩⟩

/-! ### One step -/

/-- Running operations in order is a left fold over the results. -/
theorem foldl_andThen_exec (is : List Instr) (r : Result) :
    is.foldl (fun r i => andThen r (exec i)) r = andThen r (execAll is) := by
  induction is generalizing r with
  | nil => cases r <;> rfl
  | cons i is ih =>
    rw [List.foldl_cons, ih, andThen_assoc]
    rfl

/-- A single operation is its `exec`. -/
theorem execAll_singleton (i : Instr) (s : State) : execAll [i] s = exec i s := by
  simp only [execAll]
  cases exec i s <;> rfl

/-- R11: a step takes the next input and runs what it decodes to. -/
theorem step_of_inputs_cons {s : State} {x : Stimulus} {rest : List Stimulus} (h : s.inputs = x :: rest) :
    step s = execAll (decode x) { s with inputs := rest } := by
  rw [step, runNext, takeInput_cons h]
  rfl

/-- R234: with no input a step changes nothing. -/
theorem step_of_inputs_nil {s : State} (h : s.inputs = []) : step s = .next s := by
  rw [step, runNext, takeInput_nil h]

/-- Settles O18: a step runs the decoded operations, which is the fold of the statement. -/
theorem stepRunsDecodedOperations : Obligations.StepRunsDecodedOperations := by
  refine ⟨fun s x rest h => ⟨?_, fun i hi => ?_⟩, fun s h => step_of_inputs_nil h⟩
  · rw [step_of_inputs_cons h, foldl_andThen_exec, andThen_next]
  · rw [step_of_inputs_cons h, hi, execAll_singleton]

end Sys2Proof.Machine
end

section
/-! SUPPORT. Properties that a whole transaction keeps because each operation the ports can ask for keeps them,
the invariant of R35 as the first of them, and the statements of spec/10_state.md about the invariant. -/

namespace Sys2Proof.Machine

/-! ### What a transaction keeps -/

/-- `P` is kept by everything a transaction is made of: a received byte, the reset, what the encoder and the
checksum unit write, and taking a stimulus. -/
structure KeptByPorts (P : State → Prop) : Prop where
  receive : ∀ {b : Byte} {s t : State}, P s → rxByte b s = .next t → P t
  reset : ∀ {s : State}, P s → P (resetParser s)
  answer : ∀ {s : State} (m : Memory) (r : List EncResult) (v : List Half), P s →
    (s.dest.wf = true → m.wf = true) → P { s with dest := m, txo := r, csum := v }
  take : ∀ {s : State} (xs : List Stimulus), P s → P { s with inputs := xs }

namespace KeptByPorts

variable {P : State → Prop} (hP : KeptByPorts P)
include hP

/-- R144: a chunk is its bytes. -/
theorem parse : ∀ {bs : List Byte} {s t : State}, P s → rxParse bs s = .next t → P t
  | [], _, _, hs, h => by
    cases h
    exact hs
  | _ :: _, _, _, hs, h => by
    obtain ⟨u, hu, ht⟩ := andThen_eq_next.1 h
    exact parse (hP.receive hs hu) ht

/-- R12: every operation that a port or the wire can ask for. -/
theorem exec {i : Instr} {s t : State} (hi : i.isInternal = false) (hs : P s)
    (h : Machine.exec i s = .next t) : P t := by
  cases i with
  | rxReset =>
    cases h
    exact hP.reset hs
  | rxByte b => exact hP.receive hs h
  | txEncode v ty su n p cap =>
    obtain ⟨m, r, hm, hnext⟩ := execTxEncode_spec v ty su n p cap s.cfg s.dest
    cases (hnext s rfl rfl).symm.trans h
    exact hP.answer m _ s.csum hs hm
  | csumHdr ty su n =>
    cases h
    exact hP.answer s.dest s.txo _ hs id
  | csumPay p =>
    change (if p.length ≤ 65535 then _ else _) = _ at h
    split at h
    · cases h
      exact hP.answer s.dest s.txo _ hs id
    · cases h
  | frameH ty su c => exact hP.parse hs h
  | frameHP ty su n c p d => exact hP.parse hs h
  | rxParse bs => exact hP.parse hs h
  | hdrchk | paychk | dispatch | resetInt | resync | payrescan | txFillhdr => cases hi

/-- Operations run one after the other. -/
theorem execAll : ∀ {is : List Instr} {s t : State}, (∀ i ∈ is, i.isInternal = false) → P s →
    Machine.execAll is s = .next t → P t
  | [], _, _, _, hs, h => by
    cases h
    exact hs
  | i :: is, _, _, hi, hs, h => by
    obtain ⟨u, hu, ht⟩ := andThen_eq_next.1 h
    exact execAll (fun j hj => hi j (List.mem_cons_of_mem i hj))
      (hP.exec (hi i List.mem_cons_self) hs hu) ht

/-- R11: one transaction. -/
theorem step {s t : State} (hs : P s) (h : Machine.step s = .next t) : P t := by
  cases hin : s.inputs with
  | nil =>
    rw [step_of_inputs_nil hin] at h
    cases h
    exact hs
  | cons x rest =>
    rw [step_of_inputs_cons hin] at h
    exact hP.execAll (fun i hi => not_isInternal_of_mem_decode hi) (hP.take rest hs) h

end KeptByPorts

/-! ### The invariant of R35 -/

theorem RxInv.of_consume {c : Byte} {s t : State} (h : RxInv s) (hc : Machine.consume c s = .next t) :
    RxInv t := by
  obtain ⟨u, hu, hinv⟩ := h.consume c
  cases hu.symm.trans hc
  exact hinv

/-- R37: the invariant does not look at the outputs, nor at what is presented next. -/
theorem RxInv.setOuter {s : State} (h : RxInv s) {m : Memory} (hm : m.wf = true) (r : List EncResult)
    (v : List Half) (xs : List Stimulus) :
    RxInv { s with dest := m, txo := r, csum := v, inputs := xs } :=
  ⟨h.cfg, ⟨h.memory.1, h.memory.2.1, hm⟩, h.inv1, h.inv2, h.inv3, h.inv4, h.inv5, h.inv6⟩

/-- R142: the reset keeps the invariant. -/
theorem RxInv.resetParser {s : State} (h : RxInv s) : RxInv (resetParser s) :=
  RxInv.of_reset h.cfg h.memory ⟨h.inv6.1, h.inv6.2.1⟩

theorem Inv.of_rxByte {b : Byte} {s t : State} (h : Inv s) (hr : rxByte b s = .next t) : Inv t :=
  drain_induct (fun _ _ _ => RxInv.of_consume) (fun _ q hs => hs.setQueue q) (h.1.setQueue [b]) hr

theorem keptByPorts_inv : KeptByPorts Inv where
  receive := Inv.of_rxByte
  reset h := ⟨h.1.resetParser, h.2⟩
  answer _ r v h hm := ⟨h.1.setOuter (hm h.1.memory.2.2) r v _, h.2⟩
  take xs h := ⟨h.1.setOuter h.1.memory.2.2 _ _ xs, h.2⟩

/-- Settles O51: the invariant is kept by each operation the ports can ask for. -/
theorem stepKeepsInvariant : Obligations.StepKeepsInvariant := fun _ _ => keptByPorts_inv.step

/-- R6: the stated defaults meet the constraints. -/
theorem Config.standard_wf : Config.standard.wf := by
  simp [Config.wf, Config.standard]

/-- Settles O22: hardware reset leaves a state that the decoder's own reset does not change. -/
theorem resetSatisfiesInvariant : Obligations.ResetSatisfiesInvariant :=
  ⟨RxInv.of_reset (s := State.reset) Config.standard_wf reset_memory_wf ⟨rfl, rfl⟩, rfl⟩

/-- Settles O20: both operations are `resetParser`. -/
theorem resetStateValues : Obligations.ResetStateValues := by
  refine ⟨⟨rfl, rfl, rfl, rfl, rfl, rfl, rfl, rfl, rfl⟩, fun s i hi => ⟨resetParser s, ?_, ?_⟩⟩
  · simp only [List.mem_cons, List.not_mem_nil, or_false] at hi
    obtain rfl | rfl := hi <;> rfl
  · exact ⟨rfl, rfl, rfl, rfl, rfl, rfl, rfl, rfl, rfl⟩

end Sys2Proof.Machine
end

section
/-! SUPPORT. What the operations add to the trace, and that each dispatched payload fits (R94, R140). -/

namespace Sys2Proof.Machine

/-- R94, R140: a dispatched command carries exactly `length` bytes, and `length` is an accepted one. -/
def EventFits (c : Config) : Event → Prop
  | .dispatch _ _ length payload => payload.length = length.toNat ∧ length.toNat ≤ c.maxPayloadLen
  | .hdrCrc .. | .len .. | .payCrc .. => True

/-- Between `s` and `t` the parameters stay and the trace gains only events that fit. -/
def EmitsFitting (s t : State) : Prop :=
  t.cfg = s.cfg ∧ ∃ es, t.trace = s.trace ++ es ∧ ∀ e ∈ es, EventFits s.cfg e

theorem EmitsFitting.none {s t : State} (hc : t.cfg = s.cfg) (ht : t.trace = s.trace) :
    EmitsFitting s t := ⟨hc, [], by simp [ht], by simp⟩

theorem EmitsFitting.one {s t : State} {e : Event} (hc : t.cfg = s.cfg) (ht : t.trace = s.trace ++ [e])
    (he : EventFits s.cfg e) : EmitsFitting s t := ⟨hc, [e], ht, by simpa using he⟩

theorem EmitsFitting.trans {s t u : State} (h : EmitsFitting s t) (h' : EmitsFitting t u) :
    EmitsFitting s u := by
  obtain ⟨hc, es, ht, he⟩ := h
  obtain ⟨hc', es', ht', he'⟩ := h'
  rw [hc] at he'
  refine ⟨hc'.trans hc, es ++ es', by rw [ht', ht, List.append_assoc], fun e hmem => ?_⟩
  exact (List.mem_append.1 hmem).elim (he e) (he' e)

/-- R131: a byte in SearchFlag emits nothing. -/
theorem searchArm_trace (c : Byte) (s : State) : (searchArm c s).trace = s.trace := by
  obtain ⟨-, e⟩ | ⟨-, -, e⟩ | ⟨-, -, e⟩ := searchArm_cases c s <;> rw [e] <;> rfl

/-- R133: what `HDRCHK` dispatches has no payload. -/
theorem emitsFitting_hdrchk {s t : State} (h : hdrchk s = .next t) : EmitsFitting s t := by
  have hcfg : t.cfg = s.cfg := (hdrchk_outer h).1
  have hresync : ∀ u : State, (resync u).trace = u.trace := fun u => by
    obtain ⟨-, -, -, -, htrace, -⟩ := resync_frame u
    exact htrace
  obtain ⟨-, rfl⟩ | ⟨-, -, rfl⟩ | ⟨-, -, -, rfl⟩ | ⟨-, -, -, rfl⟩ := hdrchk_cases h
  · exact .one hcfg (hresync _) trivial
  · exact .one hcfg rfl ⟨rfl, Nat.zero_le _⟩
  · exact .none rfl rfl
  · exact .one hcfg (hresync _) trivial

/-- R135: what `PAYCHK` dispatches has the length that was accepted with the header. -/
theorem emitsFitting_paychk {s t : State} (hl : s.cmdLength.toNat ≤ s.cfg.maxPayloadLen)
    (h : paychk s = .next t) : EmitsFitting s t := by
  obtain ⟨-, ⟨-, -, rfl⟩ | ⟨-, -, rfl⟩ | ⟨-, -, rfl⟩⟩ := paychk_cases h
  · exact .one rfl rfl ⟨Memory.length_readBytes _ _ _, hl⟩
  · exact .none rfl rfl
  · exact .one rfl rfl trivial

/-- R130: the bound on the length is INV5. -/
theorem RxInv.emitsFitting_consume {c : Byte} {s t : State} (hinv : RxInv s)
    (h : Machine.consume c s = .next t) : EmitsFitting s t := by
  have hcfg : t.cfg = s.cfg := (consume_outer h).1
  unfold Machine.consume at h
  cases hst : s.state with
  | searchFlag =>
    rw [hst] at h
    cases h
    exact .none hcfg (searchArm_trace c s)
  | collectHeader =>
    rw [hst] at h
    obtain ⟨-, ⟨-, rfl⟩ | ⟨-, hchk⟩⟩ := headerArm_cases h
    · exact .none rfl rfl
    · exact emitsFitting_hdrchk (s := storeHeader c s) hchk
  | collectData =>
    rw [hst] at h
    obtain ⟨-, -, hmax, -, hlen, -⟩ := hinv.inv5 hst
    obtain ⟨-, ⟨-, rfl⟩ | ⟨-, hchk⟩⟩ := dataArm_cases h
    · exact .none rfl rfl
    · exact emitsFitting_paychk (s := storePayload c s) (by simpa [hlen] using hmax) hchk

/-- Every operation the ports can ask for adds only fitting events, from a state that meets R35 to one that
does. -/
theorem keptByPorts_emitsFitting (s : State) : KeptByPorts fun t => Inv t ∧ EmitsFitting s t where
  receive := by
    rintro b t u ⟨hinv, hs⟩ hr
    have hloop : (RxInv u ∧ EmitsFitting s u) ∧ u.queue = [] :=
      drain_induct (P := fun v => RxInv v ∧ EmitsFitting s v)
        (fun _ _ _ hv hc => ⟨hv.1.of_consume hc, hv.2.trans (hv.1.emitsFitting_consume hc)⟩)
        (fun _ q hv => ⟨hv.1.setQueue q, hv.2⟩) ⟨hinv.1.setQueue [b], hs⟩ hr
    exact ⟨hinv.of_rxByte hr, hloop.1.2⟩
  reset h := ⟨keptByPorts_inv.reset h.1, h.2⟩
  answer m r v h hm := ⟨keptByPorts_inv.answer m r v h.1 hm, h.2⟩
  take xs h := ⟨keptByPorts_inv.take xs h.1, h.2⟩

/-- Settles O58: the events a step adds are among those that fit. -/
theorem dispatchedPayloadIsBounded : Obligations.DispatchedPayloadIsBounded := by
  intro s t hinv hstep ty su n p hmem
  obtain ⟨-, -, es, htrace, hfit⟩ :=
    (keptByPorts_emitsFitting s).step ⟨hinv, EmitsFitting.none rfl rfl⟩ hstep
  rw [htrace, List.drop_left] at hmem
  exact hfit _ hmem

/-! ### Accesses outside a buffer -/

theorem withPayload_of_lt {n : Nat} {s : State} {r : Result} (h : s.cfg.payloadCap < n) :
    withPayload n s r = .fault (.payloadIndex s.cfg.payloadCap) := if_neg (Nat.not_le.2 h)

/-- R130: a byte that stops the decoder stops `RX.BYTE`. -/
theorem rxByte_of_consume_fault {b : Byte} {s : State} {e : Fault}
    (h : consume b (setQueue [] s) = .fault e) : rxByte b s = .fault e := by
  rw [rxByte_eq, h, andThen_fault]

/-- Settles O39: each access is tested before it is made. -/
theorem accessOutsideBufferFaults : Obligations.AccessOutsideBufferFaults := by
  refine fun s => ⟨fun h => ⟨withPayload_of_lt h, fun _ _ => withPayload_of_lt h⟩, withPayload_of_lt,
    fun hst h b => rxByte_of_consume_fault ?_, fun hst h b => rxByte_of_consume_fault ?_⟩
  · simp only [consume, setQueue_state, hst]
    exact headerArm_outside h
  · simp only [consume, setQueue_state, hst]
    exact dataArm_outside h

end Sys2Proof.Machine
end

section
/-! SUPPORT. Two runs side by side from states that differ only in bytes no rule reads (R36). The second state
is written as the first one with other buffers, and each operation commutes with that exchange. -/

namespace Sys2Proof.Machine

/-! ### Other buffers -/

/-- `s` with other contents of the header buffer and of the payload buffer. -/
def withBuffers (h p : Memory) (s : State) : State := { s with headerBuf := h, payload := p }

theorem SameView.exists_withBuffers {s t : State} (h : SameView s t) : ∃ hd p, t = withBuffers hd p s := by
  refine ⟨t.headerBuf, t.payload, ?_⟩
  conv_rhs => rw [← h.fields]
  rfl

theorem SameView.queue_eq {s t : State} (h : SameView s t) : t.queue = s.queue := by
  obtain ⟨hd, p, rfl⟩ := h.exists_withBuffers
  rfl

theorem SameView.trace_eq {s t : State} (h : SameView s t) : t.trace = s.trace := by
  obtain ⟨hd, p, rfl⟩ := h.exists_withBuffers
  rfl

/-- R168: the bound on the loop does not depend on the buffers. -/
theorem SameView.loopFuel_eq {s t : State} (h : SameView s t) : loopFuel t = loopFuel s := by
  obtain ⟨hd, p, rfl⟩ := h.exists_withBuffers
  rfl

/-- R36: between frames no buffer byte is read. -/
theorem SameView.of_searchFlag {s : State} (h p : Memory) (hs : s.state = .searchFlag) :
    SameView s (withBuffers h p s) :=
  ⟨rfl, fun he => (nomatch hs.symm.trans he), fun he => (nomatch hs.symm.trans he)⟩

/-- With the same header buffer, only received payload bytes have to agree. -/
theorem SameView.of_payload {s : State} (p : Memory)
    (hp : s.state = .collectData → ∀ i < s.receivedLen.toNat, s.payload.read i = p.read i) :
    SameView s (withBuffers s.headerBuf p s) :=
  ⟨rfl, fun _ _ _ => rfl, hp⟩

theorem SameView.setQueue {s t : State} (h : SameView s t) (q : List Byte) :
    SameView (setQueue q s) (setQueue q t) :=
  ⟨congrArg (Machine.setQueue q) h.fields, h.header, h.received⟩

/-- R50: what lies behind the last listed byte reads as nothing written. -/
theorem Memory.read_of_below {m : Memory} {n i : Nat} (h : m.below n = true) (hi : n ≤ i) :
    m.read i = 0 := by
  induction m with
  | nil => rfl
  | cons c m ih =>
    obtain ⟨k, v⟩ := c
    simp only [Memory.below, List.all_cons, Bool.and_eq_true, decide_eq_true_eq] at h
    rw [Memory.read, if_neg (by omega)]
    exact ih h.2

/-- Canonical contents below `n` that read alike below `n` are equal. -/
theorem Memory.ext_below {m m' : Memory} {n : Nat} (hm : m.wf = true) (hm' : m'.wf = true)
    (hb : m.below n = true) (hb' : m'.below n = true) (h : ∀ i < n, m.read i = m'.read i) : m = m' := by
  refine Memory.ext_read hm hm' fun i => ?_
  by_cases hi : i < n
  · exact h i hi
  · rw [Memory.read_of_below hb (Nat.le_of_not_lt hi), Memory.read_of_below hb' (Nat.le_of_not_lt hi)]

/-- One more byte written to both at the same index. -/
theorem Memory.read_write_congr {m m' : Memory} {n : Nat} (hm : m.wf = true) (hm' : m'.wf = true)
    (h : ∀ i < n, m.read i = m'.read i) (c : Byte) :
    ∀ i < n + 1, (m.write n c).read i = (m'.write n c).read i := by
  intro i hi
  rw [Memory.read_write m n i c 0 hm, Memory.read_write m' n i c 0 hm']
  split
  · rfl
  · exact h i (by omega)

/-! ### HDRCHK and PAYCHK -/

/-- R160: `RESYNC` neither reads nor writes the payload buffer. -/
theorem resync_withBuffers (p : Memory) (s : State) :
    resync (withBuffers s.headerBuf p s) = withBuffers (resync s).headerBuf p (resync s) := by
  unfold resync
  change (match resyncScan s.headerBuf with
    | some i => _ | none => if hb s 9 = magic then _ else _) = _
  cases resyncScan s.headerBuf with
  | some i => rfl
  | none => by_cases h : hb s 9 = magic <;> simp only [h, if_true, if_false] <;> rfl

/-- R133: `HDRCHK` neither reads nor writes the payload buffer. -/
theorem hdrchk_withBuffers (p : Memory) (s : State) :
    hdrchk (withBuffers s.headerBuf p s) =
      andThen (hdrchk s) fun u => .next (withBuffers u.headerBuf p u) := by
  unfold hdrchk
  change (if hdrOk s then
      if windowLength s = 0 then _ else if lengthAccepted s.cfg (windowLength s) then _ else _
    else _) = _
  split
  · split
    next h0 =>
      rw [dispatchCommand_empty (s := takeCommand s) h0,
        dispatchCommand_empty (s := takeCommand (withBuffers s.headerBuf p s)) h0]
      rfl
    · split
      · rfl
      · exact congrArg _ (resync_withBuffers p (emit (.len (windowLength s)) (takeCommand s)))
  · exact congrArg _ (resync_withBuffers p (emit (.hdrCrc (windowComputed s) (windowReceived s)) s))

/-- R133: `HDRCHK` enters CollectData with nothing received. -/
theorem receivedLen_of_hdrchk {s t : State} (h : hdrchk s = .next t) (ht : t.state = .collectData) :
    t.receivedLen = 0 := by
  have hresync : ∀ u : State, (resync u).state ≠ .collectData := fun u => by
    obtain ⟨-, -, -, -, -, -, -, -, hne, -⟩ := resync_frame u
    exact hne
  obtain ⟨-, rfl⟩ | ⟨-, -, rfl⟩ | ⟨-, -, -, rfl⟩ | ⟨-, -, -, rfl⟩ := hdrchk_cases h
  · exact absurd ht (hresync _)
  · rfl
  · rfl
  · exact absurd ht (hresync _)

/-- R135: `PAYCHK` reads the payload and its checksum, and no other buffer byte. -/
theorem paychk_withBuffers (h : Memory) {p : Memory} {s : State} (hl : s.cmdLength = s.targetLen)
    (hp : ∀ i < s.targetLen.toNat + 2, s.payload.read i = p.read i) :
    paychk (withBuffers h p s) = andThen (paychk s) fun u => .next (withBuffers h p u) := by
  have hread : ∀ n ≤ s.targetLen.toNat + 2, pl (withBuffers h p s) n = pl s n := fun n hn =>
    Memory.readBytes_congr fun i _ hi => (hp i (by omega)).symm
  have hcomputed : payloadComputed (withBuffers h p s) = payloadComputed s :=
    congrArg payloadChecksum (hread s.targetLen.toNat (by omega))
  have hreceived : payloadReceived (withBuffers h p s) = payloadReceived s :=
    (congrArg₂ be16 (hp s.targetLen.toNat (by omega)) (hp (s.targetLen.toNat + 1) (by omega))).symm
  have hbuffered : buffered (withBuffers h p s) = buffered s := hread (s.targetLen.toNat + 2) le_rfl
  have hdispatch : dispatchCommand (withBuffers h p s) =
      andThen (dispatchCommand s) fun u => .next (withBuffers h p u) := by
    unfold dispatchCommand
    rw [show pl (withBuffers h p s) (withBuffers h p s).cmdLength.toNat = pl s s.cmdLength.toNat from
      hread s.cmdLength.toNat (by rw [hl]; omega)]
    unfold withPayload
    change (if s.cmdLength.toNat ≤ s.cfg.payloadCap then _ else _) = _
    split <;> rfl
  unfold paychk payrescan payOk withPayload
  rw [hcomputed, hreceived, hbuffered, hdispatch, andThen_assoc]
  change (if s.targetLen.toNat + 2 ≤ s.cfg.payloadCap then
      if payloadComputed s == payloadReceived s then _ else if isMemdump s then _ else
        if s.targetLen.toNat + 2 ≤ s.cfg.payloadCap then _ else _
    else _) = _
  split
  · split
    · rw [andThen_assoc]
      rfl
    · split <;> rfl
  · rfl

/-- R135: whatever `PAYCHK` answers, the decoder is between frames again. -/
theorem state_of_paychk {s t : State} (h : paychk s = .next t) : t.state = .searchFlag := by
  obtain ⟨-, ⟨-, -, rfl⟩ | ⟨-, -, rfl⟩ | ⟨-, -, rfl⟩⟩ := paychk_cases h <;> rfl

/-! ### One byte -/

/-- R131: a byte in SearchFlag. -/
theorem searchArm_sameView {s : State} {h : Memory} (p : Memory) (c : Byte) (hs : s.headerBuf.wf = true)
    (hh : h.wf = true) (hst : s.state = .searchFlag) :
    SameView (searchArm c s) (searchArm c (withBuffers h p s)) := by
  unfold searchArm
  change SameView _ (if c = magic then if s.headerFilled.toNat + 1 = 4 then _ else _ else _)
  split
  · split
    · refine ⟨rfl, fun _ i hi => ?_, fun he => nomatch he⟩
      replace hi : i < 4 := hi
      change (s.headerBuf.writeBytes 0 _).read i = (h.writeBytes 0 _).read i
      rw [Memory.read_writeBytes hs, Memory.read_writeBytes hh, if_pos (by simpa using hi),
        if_pos (by simpa using hi)]
    · exact SameView.of_searchFlag (s := countMagic s) _ _ hst
  · exact SameView.of_searchFlag (s := { s with headerFilled := 0 }) _ _ hst

/-- R132: a byte in CollectHeader. The tenth one leaves two equal header buffers to `HDRCHK`. -/
theorem headerArm_sameView {s u : State} {h p : Memory} {c : Byte} (hs : RxInv s)
    (ht : RxInv (withBuffers h p s)) (hview : SameView s (withBuffers h p s))
    (hst : s.state = .collectHeader) (hu : headerArm c s = .next u) :
    ∃ v, headerArm c (withBuffers h p s) = .next v ∧ SameView u v := by
  have hread := Memory.read_write_congr hs.memory.1 ht.memory.1 (hview.header hst) c
  obtain ⟨hlt, ⟨h10, rfl⟩ | ⟨h10, hchk⟩⟩ := headerArm_cases hu
  · refine ⟨_, headerArm_store (s := withBuffers h p s) (c := c)
      (show s.headerFilled.toNat < 9 by omega), rfl, fun _ i hi => hread i ?_,
      fun he => (nomatch hst.symm.trans he)⟩
    have := u16_succ_le s.headerFilled
    exact hi.trans_le this
  · have hbuf : h.write s.headerFilled.toNat c = s.headerBuf.write s.headerFilled.toNat c :=
      Memory.ext_below (Memory.wf_write ht.memory.1) (Memory.wf_write hs.memory.1)
        (Memory.below_write ht.inv6.1 hlt) (Memory.below_write hs.inv6.1 hlt)
        fun i hi => (hread i (by omega)).symm
    refine ⟨withBuffers u.headerBuf p u, ?_, SameView.of_payload p fun he i hi => ?_⟩
    · rw [headerArm_last (s := withBuffers h p s) (show s.headerFilled.toNat = 9 by omega)]
      change hdrchk (withBuffers (h.write s.headerFilled.toNat c) p (storeHeader c s)) = _
      rw [hbuf]
      exact (hdrchk_withBuffers p (storeHeader c s)).trans (by rw [hchk, andThen_next])
    · simp [receivedLen_of_hdrchk hchk he] at hi

/-- R134: a byte in CollectData. `PAYCHK` leaves the decoder between frames. -/
theorem dataArm_sameView {s u : State} {h p : Memory} {c : Byte} (hs : RxInv s)
    (ht : RxInv (withBuffers h p s)) (hview : SameView s (withBuffers h p s))
    (hst : s.state = .collectData) (hu : dataArm c s = .next u) :
    ∃ v, dataArm c (withBuffers h p s) = .next v ∧ SameView u v := by
  have hread := Memory.read_write_congr hs.memory.2.1 ht.memory.2.1 (hview.received hst) c
  obtain ⟨hlt, ⟨hl, rfl⟩ | ⟨hl, hchk⟩⟩ := dataArm_cases hu
  · refine ⟨_, dataArm_store (s := withBuffers h p s) (c := c) hlt
      (show s.receivedLen.toNat ≠ s.targetLen.toNat + 1 by omega), rfl,
      fun he => (nomatch hst.symm.trans he), fun _ i hi => hread i ?_⟩
    have := u16_succ_le s.receivedLen
    exact hi.trans_le this
  · obtain ⟨-, -, -, -, hlen, -⟩ := hs.inv5 hst
    refine ⟨withBuffers h (p.write s.receivedLen.toNat c) u, ?_,
      SameView.of_searchFlag _ _ (state_of_paychk hchk)⟩
    rw [dataArm_last (s := withBuffers h p s) hlt (show s.receivedLen.toNat = s.targetLen.toNat + 1 by omega)]
    have := paychk_withBuffers (s := storePayload c s) h (p := p.write s.receivedLen.toNat c) hlen
      fun i hi => hread i (hl ▸ hi)
    exact this.trans (by rw [hchk, andThen_next])

/-- R130: one byte from two states that satisfy R35 and look the same. -/
theorem SameView.consume {s t u : State} {c : Byte} (hview : SameView s t) (hs : RxInv s) (ht : RxInv t)
    (hu : Machine.consume c s = .next u) : ∃ v, Machine.consume c t = .next v ∧ SameView u v := by
  obtain ⟨h, p, rfl⟩ := hview.exists_withBuffers
  unfold Machine.consume at hu ⊢
  change ∃ v, (match s.state with
    | .searchFlag => _ | .collectHeader => _ | .collectData => _) = Host.Outcome.next v ∧ _
  cases hst : s.state with
  | searchFlag =>
    rw [hst] at hu
    cases hu
    exact ⟨_, rfl, searchArm_sameView p c hs.memory.1 ht.memory.1 hst⟩
  | collectHeader =>
    rw [hst] at hu
    exact headerArm_sameView hs ht hview hst hu
  | collectData =>
    rw [hst] at hu
    exact dataArm_sameView hs ht hview hst hu

/-! ### The loop -/

theorem drain_of_queue_nil {s : State} (fuel : Nat) (hq : s.queue = []) : drain fuel s = .next s := by
  cases fuel <;> rw [drain, hq]

theorem drain_zero_of_queue_cons {s : State} {c : Byte} {rest : List Byte} (hq : s.queue = c :: rest) :
    drain 0 s = .fault .loopBound := by
  rw [drain, hq]

theorem drain_succ_of_queue_cons {s : State} {c : Byte} {rest : List Byte} (fuel : Nat)
    (hq : s.queue = c :: rest) :
    drain (fuel + 1) s = andThen (consume c (setQueue rest s)) (drain fuel) := by
  rw [drain, hq]

/-- R130: the loop takes the same bytes in both runs, because the queue is among the fields that agree. -/
theorem SameView.drain {fuel : Nat} {s t u : State} (hview : SameView s t) (hs : RxInv s) (ht : RxInv t)
    (hu : Machine.drain fuel s = .next u) : ∃ v, Machine.drain fuel t = .next v ∧ SameView u v := by
  cases hq : s.queue with
  | nil =>
    cases (drain_of_queue_nil fuel hq).symm.trans hu
    exact ⟨t, drain_of_queue_nil fuel (hview.queue_eq.trans hq), hview⟩
  | cons c rest =>
    cases fuel with
    | zero => cases (drain_zero_of_queue_cons hq).symm.trans hu
    | succ n =>
      rw [drain_succ_of_queue_cons n hq] at hu
      rw [drain_succ_of_queue_cons n (hview.queue_eq.trans hq)]
      obtain ⟨s', hs', hu⟩ := andThen_eq_next.1 hu
      obtain ⟨t', ht', hview'⟩ := (hview.setQueue rest).consume (hs.setQueue rest) (ht.setQueue rest) hs'
      rw [ht', andThen_next]
      exact hview'.drain ((hs.setQueue rest).of_consume hs') ((ht.setQueue rest).of_consume ht') hu
termination_by fuel

/-- Settles O57: both runs go through the loop of R130 side by side, and end with traces that agree as every
field but the buffers does. -/
theorem staleBytesAreUnobservable : Obligations.StaleBytesAreUnobservable := by
  rintro b s t ⟨hs, -⟩ ⟨ht, -⟩ hview
  have hview₁ := hview.setQueue [b]
  obtain ⟨s', hs', -⟩ := (hs.setQueue [b]).drain (rank_lt_loopFuel (setQueue [b] s))
  obtain ⟨t', ht', hview'⟩ := hview₁.drain (hs.setQueue [b]) (ht.setQueue [b]) hs'
  rw [← hview₁.loopFuel_eq] at ht'
  exact ⟨s', t', hs', ht', hview'.trace_eq.symm, hview'⟩

end Sys2Proof.Machine
end

section
/-! SUPPORT. The three ports kept apart (R54, R55, R68, R184, R210): the decoder leaves the outputs of the encoder
and of the checksum unit alone and does not read them, so its operations commute with whatever those two answer. -/

namespace Sys2Proof.Machine

/-! ### The decoder leaves the other units' outputs alone -/

/-- The operations of the decoder, the internal ones included; the others are the encoder's and the checksum
unit's. -/
def runsDecoder : Instr → Bool
  | .txEncode .. | .txFillhdr .. | .csumHdr .. | .csumPay .. => false
  | .rxReset | .rxByte .. | .frameH .. | .frameHP .. | .rxParse .. | .hdrchk | .paychk | .dispatch
  | .resetInt | .resync | .payrescan .. => true

theorem SameOuter.refl (s : State) : SameOuter s s := ⟨rfl, rfl, rfl, rfl, rfl⟩

theorem resync_outer (s : State) : SameOuter s (resync s) := by
  obtain ⟨hcfg, -, -, hdest, -, htxo, hcsum, hinputs, -⟩ := resync_frame s
  exact ⟨hcfg, hdest, htxo, hcsum, hinputs⟩

theorem dispatchCommand_outer {s t : State} (h : dispatchCommand s = .next t) : SameOuter s t := by
  obtain ⟨-, rfl⟩ := dispatchCommand_eq_next.1 h
  exact .refl s

theorem paychk_outer {s t : State} (h : paychk s = .next t) : SameOuter s t := by
  obtain ⟨-, ⟨-, -, rfl⟩ | ⟨-, -, rfl⟩ | ⟨-, -, rfl⟩⟩ := paychk_cases h <;> exact .refl s

theorem payrescan_outer {c r : Half} {s t : State} (h : payrescan c r s = .next t) : SameOuter s t := by
  obtain ⟨-, h⟩ := withPayload_eq_next.1 h
  cases h
  exact .refl s

/-- R68: every operation of the decoder leaves the encoder's and the checksum unit's outputs alone. -/
theorem exec_outer {i : Instr} {s t : State} (hi : runsDecoder i = true) (h : exec i s = .next t) :
    SameOuter s t := by
  cases i with
  | rxReset | resetInt =>
    cases h
    exact .refl s
  | rxByte b => exact (rxByte_outer h).1
  | frameH | frameHP | rxParse => exact rxParse_outer h
  | hdrchk => exact hdrchk_outer h
  | paychk => exact paychk_outer h
  | dispatch => exact dispatchCommand_outer h
  | resync =>
    cases h
    exact resync_outer s
  | payrescan => exact payrescan_outer h
  | txEncode | txFillhdr | csumHdr | csumPay => cases hi

/-- Settles O55: the four operations of the other two units are read off one by one; the rest are the
decoder's. -/
theorem unitsKeepApart : Obligations.UnitsKeepApart := by
  intro i s t h
  cases i with
  | txEncode v ty su n p cap =>
    obtain ⟨m, r, -, hnext⟩ := execTxEncode_spec v ty su n p cap s.cfg s.dest
    cases (hnext s rfl rfl).symm.trans h
    exact ⟨fun hne _ => absurd rfl (hne v ty su n p cap), fun _ _ => rfl, fun _ => rfl⟩
  | txFillhdr ty su n =>
    cases h
    exact ⟨fun _ hne => absurd rfl (hne ty su n), fun _ _ => rfl, fun _ => rfl⟩
  | csumHdr ty su n =>
    cases h
    exact ⟨fun _ _ => ⟨rfl, rfl⟩, fun hne _ => absurd rfl (hne ty su n), fun _ => rfl⟩
  | csumPay p =>
    change (if p.length ≤ 65535 then _ else _) = _ at h
    split at h
    · cases h
      exact ⟨fun _ _ => ⟨rfl, rfl⟩, fun _ hne => absurd rfl (hne p), fun _ => rfl⟩
    · cases h
  | rxReset | rxByte | frameH | frameHP | rxParse | hdrchk | paychk | dispatch | resetInt | resync
  | payrescan =>
    obtain ⟨-, hdest, htxo, hcsum, -⟩ := exec_outer rfl h
    exact ⟨fun _ _ => ⟨hdest, htxo⟩, fun _ _ => hcsum, by simp⟩

/-! ### The decoder does not read the other units' outputs -/

/-- `s` with other outputs of the encoder and of the checksum unit. -/
def writeOutputs (d : Memory) (r : List EncResult) (v : List Half) (s : State) : State :=
  { s with dest := d, txo := r, csum := v }

@[simp] theorem writeOutputs_state (d : Memory) (r : List EncResult) (v : List Half) (s : State) :
    (writeOutputs d r v s).state = s.state := rfl

/-- `f` commutes with a change of the outputs: it neither reads nor writes them. -/
def IgnoresOutputs (f : State → Result) : Prop :=
  ∀ d r v s, f (writeOutputs d r v s) = andThen (f s) fun t => .next (writeOutputs d r v t)

namespace IgnoresOutputs

variable {f g : State → Result}

theorem next {u : State → State} (hu : ∀ d r v s, u (writeOutputs d r v s) = writeOutputs d r v (u s)) :
    IgnoresOutputs fun s => .next (u s) := fun d r v s => congrArg _ (hu d r v s)

theorem fault {e : State → Fault} (he : ∀ d r v s, e (writeOutputs d r v s) = e s) :
    IgnoresOutputs fun s => .fault (e s) := fun d r v s => congrArg _ (he d r v s)

theorem comp {u : State → State} (hf : IgnoresOutputs f)
    (hu : ∀ d r v s, u (writeOutputs d r v s) = writeOutputs d r v (u s)) :
    IgnoresOutputs fun s => f (u s) := fun d r v s =>
  (congrArg f (hu d r v s)).trans (hf d r v (u s))

theorem andThen (hf : IgnoresOutputs f) (hg : IgnoresOutputs g) :
    IgnoresOutputs fun s => Machine.andThen (f s) g := by
  intro d r v s
  beta_reduce
  rw [hf d r v s, andThen_assoc, andThen_assoc]
  exact congrArg _ (funext (hg d r v))

theorem ite {c : State → Prop} [DecidablePred c] (hc : ∀ d r v s, c (writeOutputs d r v s) ↔ c s)
    (hf : IgnoresOutputs f) (hg : IgnoresOutputs g) :
    IgnoresOutputs fun s => if c s then f s else g s := by
  intro d r v s
  by_cases h : c s
  · simpa only [if_pos h, if_pos ((hc d r v s).2 h)] using hf d r v s
  · simpa only [if_neg h, if_neg (mt (hc d r v s).1 h)] using hg d r v s

/-- R53: the bound on payload accesses is a parameter. -/
theorem withPayload {n : State → Nat} (hn : ∀ d r v s, n (writeOutputs d r v s) = n s)
    (hf : IgnoresOutputs f) : IgnoresOutputs fun s => Machine.withPayload (n s) s (f s) :=
  ite (fun d r v s => by rw [hn]; rfl) hf (fault fun _ _ _ _ => rfl)

end IgnoresOutputs

theorem resync_writeOutputs (d : Memory) (r : List EncResult) (v : List Half) (s : State) :
    resync (writeOutputs d r v s) = writeOutputs d r v (resync s) := by
  unfold resync
  change (match resyncScan s.headerBuf with
    | some i => _ | none => if hb s 9 = magic then _ else _) = _
  cases resyncScan s.headerBuf with
  | some i => rfl
  | none => by_cases h : hb s 9 = magic <;> simp only [h, if_true, if_false] <;> rfl

theorem searchArm_writeOutputs (c : Byte) (d : Memory) (r : List EncResult) (v : List Half) (s : State) :
    searchArm c (writeOutputs d r v s) = writeOutputs d r v (searchArm c s) := by
  unfold searchArm
  change (if c = magic then if s.headerFilled.toNat + 1 = 4 then _ else _ else _) = _
  split
  · split <;> rfl
  · rfl

theorem ignoresOutputs_resetParser : IgnoresOutputs fun s => .next (resetParser s) :=
  .next fun _ _ _ _ => rfl

theorem ignoresOutputs_dispatchCommand : IgnoresOutputs dispatchCommand :=
  .withPayload (fun _ _ _ _ => rfl) (.next fun _ _ _ _ => rfl)

theorem ignoresOutputs_payrescan (c r : Half) : IgnoresOutputs (payrescan c r) :=
  .withPayload (fun _ _ _ _ => rfl) (.next fun _ _ _ _ => rfl)

/-- R133: `HDRCHK`, with the recovery of both its events. -/
theorem ignoresOutputs_hdrchk : IgnoresOutputs hdrchk :=
  .ite (fun _ _ _ _ => Iff.rfl)
    (.ite (fun _ _ _ _ => Iff.rfl)
      (.andThen (ignoresOutputs_dispatchCommand.comp fun _ _ _ _ => rfl) ignoresOutputs_resetParser)
      (.ite (fun _ _ _ _ => Iff.rfl) (.next fun _ _ _ _ => rfl)
        (.next fun d r v s => resync_writeOutputs d r v (emit (.len (windowLength s)) (takeCommand s)))))
    (.next fun d r v s =>
      resync_writeOutputs d r v (emit (.hdrCrc (windowComputed s) (windowReceived s)) s))

/-- R135: `PAYCHK`, with the rescan. -/
theorem ignoresOutputs_paychk : IgnoresOutputs paychk :=
  .withPayload (fun _ _ _ _ => rfl)
    (.ite (fun _ _ _ _ => Iff.rfl) (.andThen ignoresOutputs_dispatchCommand ignoresOutputs_resetParser)
      (.ite (fun _ _ _ _ => Iff.rfl) ignoresOutputs_resetParser
        fun d r v s => ignoresOutputs_payrescan (payloadComputed s) (payloadReceived s) d r v s))

/-- R132: a byte in CollectHeader. -/
theorem ignoresOutputs_headerArm (c : Byte) : IgnoresOutputs (headerArm c) :=
  .ite (fun _ _ _ _ => Iff.rfl)
    (.ite (fun _ _ _ _ => Iff.rfl) (ignoresOutputs_hdrchk.comp fun _ _ _ _ => rfl)
      (.next fun _ _ _ _ => rfl))
    (.fault fun _ _ _ _ => rfl)

/-- R134: a byte in CollectData. -/
theorem ignoresOutputs_dataArm (c : Byte) : IgnoresOutputs (dataArm c) :=
  .ite (fun _ _ _ _ => Iff.rfl)
    (.ite (fun _ _ _ _ => Iff.rfl) (ignoresOutputs_paychk.comp fun _ _ _ _ => rfl)
      (.next fun _ _ _ _ => rfl))
    (.fault fun _ _ _ _ => rfl)

/-- R130: one byte. -/
theorem ignoresOutputs_consume (c : Byte) : IgnoresOutputs (consume c) := by
  intro d r v s
  cases hst : s.state <;> simp only [consume, writeOutputs_state, hst]
  case searchFlag => exact congrArg _ (searchArm_writeOutputs c d r v s)
  case collectHeader => exact ignoresOutputs_headerArm c d r v s
  case collectData => exact ignoresOutputs_dataArm c d r v s

/-- R130: the loop takes the same bytes, because the queue is no output. -/
theorem ignoresOutputs_drain (fuel : Nat) : IgnoresOutputs (drain fuel) := by
  intro d r v s
  cases hq : s.queue with
  | nil =>
    rw [drain_of_queue_nil fuel hq, drain_of_queue_nil (s := writeOutputs d r v s) fuel hq, andThen_next]
  | cons c rest =>
    cases fuel with
    | zero =>
      rw [drain_zero_of_queue_cons hq, drain_zero_of_queue_cons (s := writeOutputs d r v s) hq, andThen_fault]
    | succ n =>
      rw [drain_succ_of_queue_cons n hq, drain_succ_of_queue_cons (s := writeOutputs d r v s) n hq]
      have hbyte : IgnoresOutputs fun s => consume c (setQueue rest s) :=
        (ignoresOutputs_consume c).comp fun _ _ _ _ => rfl
      exact hbyte.andThen (ignoresOutputs_drain n) d r v s

theorem ignoresOutputs_rxByte (b : Byte) : IgnoresOutputs (rxByte b) := fun d r v s =>
  ignoresOutputs_drain (loopFuel (setQueue [b] s)) d r v (setQueue [b] s)

theorem ignoresOutputs_rxParse : ∀ bs : List Byte, IgnoresOutputs (rxParse bs)
  | [] => .next fun _ _ _ _ => rfl
  | b :: bs => (ignoresOutputs_rxByte b).andThen (ignoresOutputs_rxParse bs)

/-- R68, R210: every operation of the decoder. -/
theorem ignoresOutputs_exec {i : Instr} (hi : runsDecoder i = true) : IgnoresOutputs (exec i) := by
  cases i with
  | rxReset | resetInt => exact ignoresOutputs_resetParser
  | rxByte b => exact ignoresOutputs_rxByte b
  | frameH | frameHP | rxParse => exact ignoresOutputs_rxParse _
  | hdrchk => exact ignoresOutputs_hdrchk
  | paychk => exact ignoresOutputs_paychk
  | dispatch => exact ignoresOutputs_dispatchCommand
  | resync => exact .next resync_writeOutputs
  | payrescan c r => exact ignoresOutputs_payrescan c r
  | txEncode | txFillhdr | csumHdr | csumPay => cases hi

/-! ### Two requests at different ports -/

/-- `j` answers next with outputs that depend on the parameters and the outputs alone. -/
def AnswersOutputs (j : Instr) : Prop :=
  ∀ s, ∃ d r v, ∀ t, SameOuter s t → exec j t = .next (writeOutputs d r v t)

/-- R184: an encode depends on nothing of the decoder. -/
theorem answersOutputs_txEncode (w : Bool) (ty su : Byte) (n : Half) (p : List Byte) (cap : Nat) :
    AnswersOutputs (.txEncode w ty su n p cap) := by
  intro s
  obtain ⟨m, r, -, hnext⟩ := execTxEncode_spec w ty su n p cap s.cfg s.dest
  refine ⟨m, s.txo ++ [r], s.csum, fun t ⟨hcfg, hdest, htxo, hcsum, _⟩ => (hnext t hcfg hdest).trans ?_⟩
  rw [← htxo, ← hcsum]
  rfl

/-- R55: an operation that answers one checksum. -/
theorem answersOutputs_of_answerCs {j : Instr} {x : Half} (hj : ∀ s, exec j s = .next (answerCs x s)) :
    AnswersOutputs j := by
  refine fun s => ⟨s.dest, s.txo, s.csum ++ [x], fun t ⟨_, hdest, htxo, hcsum, _⟩ => (hj t).trans ?_⟩
  rw [← hdest, ← htxo, ← hcsum]
  rfl

theorem exec_csumPay_of_le {p : List Byte} (hp : p.length ≤ 65535) (s : State) :
    exec (.csumPay p) s = .next (answerCs (payloadChecksum p) s) := if_pos hp

theorem exec_csumPay_of_lt {p : List Byte} (hp : 65535 < p.length) (s : State) :
    exec (.csumPay p) s = .refused (.csumPayTooLong p.length) := if_neg (Nat.not_le.2 hp)

/-- R210: a decoder operation and one that only answers. Where the decoder stops, it does so either way. -/
theorem andThen_exec_comm {i j : Instr} (hi : runsDecoder i = true) (hj : AnswersOutputs j) (s : State) :
    andThen (exec i s) (exec j) = andThen (exec j s) (exec i) := by
  obtain ⟨d, r, v, hnext⟩ := hj s
  calc andThen (exec i s) (exec j)
      = andThen (exec i s) fun t => .next (writeOutputs d r v t) := by
        cases h : exec i s with
        | next t => exact hnext t (exec_outer hi h)
        | fault | refused => rfl
    _ = exec i (writeOutputs d r v s) := (ignoresOutputs_exec hi d r v s).symm
    _ = andThen (exec j s) (exec i) := by rw [hnext s (.refl s), andThen_next]

/-- R210: an encode and a request that answers one checksum. -/
theorem txEncode_comm_of_answerCs {w : Bool} {ty su : Byte} {n : Half} {p : List Byte} {cap : Nat} {j : Instr}
    {x : Half} (hj : ∀ s, exec j s = .next (answerCs x s)) (s : State) :
    andThen (exec (.txEncode w ty su n p cap) s) (exec j) =
      andThen (exec j s) (exec (.txEncode w ty su n p cap)) := by
  obtain ⟨m, r, -, hnext⟩ := execTxEncode_spec w ty su n p cap s.cfg s.dest
  calc andThen (execTxEncode w ty su n p cap s) (exec j)
      = .next (answerCs x { s with dest := m, txo := s.txo ++ [r] }) := by
        rw [hnext s rfl rfl, andThen_next, hj]
    _ = execTxEncode w ty su n p cap (answerCs x s) := (hnext (answerCs x s) rfl rfl).symm
    _ = andThen (exec j s) (exec (.txEncode w ty su n p cap)) := by
        rw [hj, andThen_next]
        rfl

/-- R113, U11: an encode never stops, so a checksum request that is refused is refused either way. -/
theorem txEncode_comm_of_refused {w : Bool} {ty su : Byte} {n : Half} {p : List Byte} {cap : Nat} {j : Instr}
    {e : Refusal} (hj : ∀ s, exec j s = .refused e) (s : State) :
    andThen (exec (.txEncode w ty su n p cap) s) (exec j) =
      andThen (exec j s) (exec (.txEncode w ty su n p cap)) := by
  obtain ⟨d, r, v, hnext⟩ := answersOutputs_txEncode w ty su n p cap s
  rw [hnext s (.refl s), andThen_next, hj, hj, andThen_refused]

/-- Settles O56: the decoder against each unit that only answers, then the encoder against the checksum unit. -/
theorem independentPortsCommute : Obligations.IndependentPortsCommute := by
  constructor
  · intro i j s hi hj
    have hdecoder : runsDecoder i = true := by
      obtain rfl | ⟨_, rfl⟩ | ⟨_, rfl⟩ | ⟨_, _, _, rfl⟩ | ⟨_, _, _, _, _, _, rfl⟩ := hi <;> rfl
    refine andThen_exec_comm hdecoder ?_ s
    obtain ⟨w, ty, su, n, p, cap, rfl⟩ | ⟨ty, su, n, rfl⟩ | ⟨p, hp, rfl⟩ := hj
    · exact answersOutputs_txEncode w ty su n p cap
    · exact answersOutputs_of_answerCs fun _ => rfl
    · exact answersOutputs_of_answerCs (exec_csumPay_of_le hp)
  · rintro i j s ⟨w, ty, su, n, p, cap, rfl⟩ (⟨ty', su', m, rfl⟩ | ⟨q, rfl⟩)
    · exact txEncode_comm_of_answerCs (fun _ => rfl) s
    · rcases Nat.lt_or_ge 65535 q.length with hq | hq
      · exact txEncode_comm_of_refused (exec_csumPay_of_lt hq) s
      · exact txEncode_comm_of_answerCs (exec_csumPay_of_le hq) s

end Sys2Proof.Machine
end

section
/-! SUPPORT. The wire formats and the request word (R80 to R89, R96, R97): which bytes are which frame, which bits
ask for which operation, and the statements of spec/30_encoding.md about decoding. -/

namespace Sys2Proof.Machine

/-! ### Requests at the ports -/

/-- R89, R96: the operations of a request word, by its bits. -/
theorem decodePorts_eq (p : PortSample) : decodePorts p =
    (if p.rq.getLsbD 0 then [.rxReset] else if p.rq.getLsbD 1 then [.rxByte p.rxData] else []) ++
    (if p.rq.getLsbD 2 then
      [.txEncode p.cmdValid p.txType p.txSubtype p.txLength p.txpl p.destCapacity] else []) ++
    (if p.rq.getLsbD 3 then
      (if p.rq.getLsbD 4 then [.csumPay p.csData] else [.csumHdr p.csType p.csSubtype p.csLength])
    else []) := by
  obtain ⟨h0, h1, h2, h3, h4⟩ := requests_bits p.rq
  rw [decodePorts, h0, h1, h2, h3, h4]
  have hrx : (if p.rq.getLsbD 0 then [Instr.rxReset] else []) ++
      (if !p.rq.getLsbD 0 && p.rq.getLsbD 1 then [.rxByte p.rxData] else []) =
      if p.rq.getLsbD 0 then [.rxReset] else if p.rq.getLsbD 1 then [.rxByte p.rxData] else [] := by
    cases p.rq.getLsbD 0 <;> simp
  have hcs : (if p.rq.getLsbD 3 && !p.rq.getLsbD 4 then [Instr.csumHdr p.csType p.csSubtype p.csLength] else []) ++
      (if p.rq.getLsbD 3 && p.rq.getLsbD 4 then [.csumPay p.csData] else []) =
      if p.rq.getLsbD 3 then
        (if p.rq.getLsbD 4 then [.csumPay p.csData] else [.csumHdr p.csType p.csSubtype p.csLength])
      else [] := by
    cases p.rq.getLsbD 3 <;> cases p.rq.getLsbD 4 <;> rfl
  rw [hrx, List.append_assoc, hcs]

/-- Settles O10: the word is read bit by bit, and the word 0 asks for nothing. -/
theorem requestWordSelectsOperations : Obligations.RequestWordSelectsOperations := by
  refine ⟨decodePorts_eq, fun p rest s hrq hin => ?_⟩
  have hnone : decodePorts p = [] := by simp [decodePorts_eq, hrq]
  rw [step_of_inputs_cons hin, decode, hnone, execAll]

/-- R96: with `soft_reset` no byte is taken. -/
theorem rxByte_not_mem_decodePorts {p : PortSample} (h : p.rq.getLsbD 0 = true) (b : Byte) :
    .rxByte b ∉ decodePorts p := by
  intro hmem
  obtain ⟨-, hi⟩ | ⟨hrx, -⟩ | ⟨-, hi⟩ | ⟨-, hi⟩ | ⟨-, hi⟩ := mem_decodePorts.1 hmem
  case inr.inl =>
    obtain ⟨-, hreceive, -⟩ := requests_bits p.rq
    rw [hreceive, h] at hrx
    cases hrx
  all_goals cases hi

/-- Settles O11, from the operations that the bits select. -/
theorem softResetBeatsReceive : Obligations.SoftResetBeatsReceive := by
  refine ⟨fun p h => ⟨?_, ?_, rxByte_not_mem_decodePorts h⟩, fun p h => ?_, fun p rest s hin h0 h2 h3 => ?_⟩
  · simp [rxReady, h]
  · exact mem_decodePorts.2 (.inl ⟨(requests_bits p.rq).1.trans h, rfl⟩)
  · have h3 : p.rq[3] = false := h
    simp [decode, decodePorts_eq, h3]
  · have hreset : decodePorts p = [.rxReset] := by
      rw [decodePorts_eq, if_pos h0, h2, h3]
      rfl
    rw [step_of_inputs_cons hin, decode, hreset, execAll_singleton]
    rfl

/-! ### Bytes of a frame -/

theorem byteAt_append_right (x y : List Byte) (i : Nat) : byteAt (x ++ y) (x.length + i) = byteAt y i := by
  rw [byteAt, List.getD_append_right _ _ _ _ (Nat.le_add_right ..), Nat.add_sub_cancel_left, byteAt]

theorem length_headerBytes (t u : Byte) (n h : Half) : (headerBytes t u n h).length = 10 := rfl

theorem length_payloadFrameBytes (t u : Byte) (n h c : Half) (p : List Byte) :
    (payloadFrameBytes t u n h p c).length = 12 + p.length := by
  simp only [payloadFrameBytes, List.length_append, length_headerBytes, fieldBytes, List.length_cons,
    List.length_nil]
  omega

/-- R81, R85: where the four fields of a header stand. -/
theorem byteAt_headerBytes (t u : Byte) (n h : Half) (bs : List Byte) :
    byteAt (headerBytes t u n h ++ bs) 4 = t ∧ byteAt (headerBytes t u n h ++ bs) 5 = u ∧
    be16 (byteAt (headerBytes t u n h ++ bs) 6) (byteAt (headerBytes t u n h ++ bs) 7) = n ∧
    be16 (byteAt (headerBytes t u n h ++ bs) 8) (byteAt (headerBytes t u n h ++ bs) 9) = h := by
  simp [headerBytes, fieldBytes, byteAt]

/-- R81: ten bytes that begin with the magic number are a header, whatever stands behind them. -/
theorem headerBytes_append_drop {bs : List Byte} (hlen : 10 ≤ bs.length)
    (hmagic : bs.take 4 = [magic, magic, magic, magic]) :
    headerBytes (byteAt bs 4) (byteAt bs 5) (be16 (byteAt bs 6) (byteAt bs 7))
      (be16 (byteAt bs 8) (byteAt bs 9)) ++ bs.drop 10 = bs := by
  match bs, hlen with
  | _ :: _ :: _ :: _ :: _ :: _ :: _ :: _ :: _ :: _ :: _, _ =>
    simp only [List.take_succ_cons, List.take_zero, List.cons.injEq, and_true] at hmagic
    obtain ⟨rfl, rfl, rfl, rfl⟩ := hmagic
    simp [headerBytes, fieldBytes, byteAt]

/-- R83: the last two bytes are the payload checksum. -/
theorem take_append_fieldBytes {bs : List Byte} {n : Nat} (hlen : bs.length = n + 2) :
    bs.take n ++ fieldBytes (be16 (byteAt bs n) (byteAt bs (n + 1))) = bs := by
  have h0 : n < bs.length := by omega
  have h1 : n + 1 < bs.length := by omega
  have hlast : bs.drop n = [bs[n], bs[n + 1]] := by
    rw [List.drop_eq_getElem_cons h0, List.drop_eq_getElem_cons h1, List.drop_of_length_le (by omega)]
  rw [fieldBytes, hi8_be16, lo8_be16, byteAt, byteAt, List.getD_eq_getElem _ _ h0, List.getD_eq_getElem _ _ h1,
    ← hlast, List.take_append_drop]

/-- R83: bytes with a payload are the frame of their fields. -/
theorem payloadFrameBytes_of_bytes {bs : List Byte} {n : Half} (hlen : bs.length = 12 + n.toNat)
    (hmagic : bs.take 4 = [magic, magic, magic, magic]) (hn : n = be16 (byteAt bs 6) (byteAt bs 7)) :
    payloadFrameBytes (byteAt bs 4) (byteAt bs 5) n (be16 (byteAt bs 8) (byteAt bs 9))
      ((bs.drop 10).take n.toNat) (be16 (byteAt bs (10 + n.toNat)) (byteAt bs (11 + n.toNat))) = bs := by
  have hdrop : (bs.drop 10).length = n.toNat + 2 := by rw [List.length_drop]; omega
  have hbyte : ∀ i, byteAt bs (10 + i) = byteAt (bs.drop 10) i := fun i => by
    simp [byteAt, List.getD_eq_getElem?_getD]
  rw [payloadFrameBytes, show 11 + n.toNat = 10 + (n.toNat + 1) by omega, hbyte, hbyte, List.append_assoc,
    take_append_fieldBytes hdrop, hn]
  exact headerBytes_append_drop (by omega) hmagic

/-- R81: the magic number, byte by byte. -/
theorem take_four_eq_magic_iff {bs : List Byte} (hlen : 4 ≤ bs.length) :
    bs.take 4 = [magic, magic, magic, magic] ↔ ∀ k < 4, bs.getD k 0 = magic := by
  match bs, hlen with
  | a :: b :: c :: d :: bs, _ =>
    simp only [List.take_succ_cons, List.take_zero, List.cons.injEq, and_true]
    constructor
    · rintro ⟨rfl, rfl, rfl, rfl⟩ k hk
      obtain rfl | rfl | rfl | rfl : k = 0 ∨ k = 1 ∨ k = 2 ∨ k = 3 := by omega
      all_goals rfl
    · intro h
      exact ⟨h 0 (by omega), h 1 (by omega), h 2 (by omega), h 3 (by omega)⟩

/-! ### Decoding a frame -/

/-- R82: ten bytes whose length field is 0. -/
theorem decodeFrame_of_length_zero {bs : List Byte} (hlen : bs.length = 10)
    (hmagic : bs.take 4 = [magic, magic, magic, magic]) (h0 : be16 (byteAt bs 6) (byteAt bs 7) = 0) :
    decodeFrame bs = .ok (.frameH (byteAt bs 4) (byteAt bs 5) (be16 (byteAt bs 8) (byteAt bs 9))) := by
  simp [decodeFrame, hlen, hmagic, h0]

/-- R83: as many bytes as a length field other than 0 asks for. -/
theorem decodeFrame_of_length_ne_zero {bs : List Byte} {n : Half} (hlen : bs.length = 12 + n.toNat)
    (hmagic : bs.take 4 = [magic, magic, magic, magic]) (hn : n = be16 (byteAt bs 6) (byteAt bs 7))
    (h0 : n ≠ 0) :
    decodeFrame bs = .ok (.frameHP (byteAt bs 4) (byteAt bs 5) n (be16 (byteAt bs 8) (byteAt bs 9))
      ((bs.drop 10).take n.toNat) (be16 (byteAt bs (10 + n.toNat)) (byteAt bs (11 + n.toNat)))) := by
  subst hn
  simp only [decodeFrame]
  rw [if_neg (by omega), if_neg (not_not.2 hmagic), if_neg h0, if_pos hlen]

theorem decodeFrame_headerBytes (t u : Byte) (h : Half) :
    decodeFrame (headerBytes t u 0 h) = .ok (.frameH t u h) := by
  obtain ⟨ht, hu, hn, hh⟩ := byteAt_headerBytes t u 0 h []
  rw [List.append_nil] at ht hu hn hh
  rw [decodeFrame_of_length_zero (length_headerBytes t u 0 h) rfl hn, ht, hu, hh]

theorem decodeFrame_payloadFrameBytes {t u : Byte} {n h c : Half} {p : List Byte} (h0 : n ≠ 0)
    (hp : p.length = n.toNat) :
    decodeFrame (payloadFrameBytes t u n h p c) = .ok (.frameHP t u n h p c) := by
  have hbytes : payloadFrameBytes t u n h p c = headerBytes t u n h ++ (p ++ fieldBytes c) :=
    List.append_assoc ..
  have hlen : (headerBytes t u n h ++ p).length = 10 + n.toNat := by
    rw [List.length_append, length_headerBytes, hp]
  have hcrc : be16 (byteAt (payloadFrameBytes t u n h p c) (10 + n.toNat))
      (byteAt (payloadFrameBytes t u n h p c) (11 + n.toNat)) = c := by
    have hbyte := byteAt_append_right (headerBytes t u n h ++ p) (fieldBytes c)
    rw [show 11 + n.toNat = 10 + n.toNat + 1 by omega, ← hlen]
    exact (congrArg₂ be16 (hbyte 0) (hbyte 1)).trans (be16_hi8_lo8 c)
  obtain ⟨ht, hu, hn, hh⟩ := byteAt_headerBytes t u n h (p ++ fieldBytes c)
  rw [← hbytes] at ht hu hn hh
  have hpayload : ((payloadFrameBytes t u n h p c).drop 10).take n.toNat = p := by
    rw [hbytes, List.drop_left' (length_headerBytes t u n h), List.take_left' hp]
  rw [decodeFrame_of_length_ne_zero (by rw [length_payloadFrameBytes, hp]) rfl hn.symm h0, ht, hu, hh, hpayload,
    hcrc]

/-- Settles O12: a request word asks for its operation alone, and a frame is read back field by field. -/
theorem decodeEncodeAgree : Obligations.DecodeEncodeAgree := by
  intro i x hwf henc
  cases i with
  | rxReset | rxByte | txEncode | csumHdr | csumPay =>
    cases henc
    simp [decode, decodePorts_eq]
  | rxParse bs =>
    cases henc
    rfl
  | frameH t u h =>
    cases henc
    simp only [decode, decodeFrame_headerBytes]
  | frameHP t u n h p c =>
    cases henc
    obtain ⟨h0, hp⟩ : n ≠ 0 ∧ p.length = n.toNat := by simpa [Instr.wf] using hwf
    simp only [decode, decodeFrame_payloadFrameBytes h0 hp]
  | hdrchk | paychk | dispatch | resetInt | resync | payrescan | txFillhdr => cases henc

/-- Settles O13: the bytes are put together again from the fields that were read. -/
theorem encodeDecodeFrameAgree : Obligations.EncodeDecodeFrameAgree := by
  intro bs i h
  obtain ⟨hlen, hmagic, ⟨h0, h10, rfl⟩ | ⟨n, hn, h0, htotal, rfl⟩⟩ := decodeFrame_cases h
  · refine ⟨rfl, congrArg (fun x => some (Stimulus.frame x)) ?_⟩
    have hbytes := headerBytes_append_drop hlen hmagic
    rwa [h0, List.drop_of_length_le h10.le, List.append_nil] at hbytes
  · refine ⟨?_, congrArg (fun x => some (Stimulus.frame x)) (payloadFrameBytes_of_bytes htotal hmagic hn)⟩
    have hcount : n.toNat ≤ bs.length - 10 := by omega
    simpa [Instr.wf, hcount] using h0

/-- Settles O14: each direction is one of the two formats. -/
theorem frameShapeDecides : Obligations.FrameShapeDecides := by
  intro bs
  constructor
  · rintro ⟨i, h⟩
    obtain ⟨hlen, hmagic, hformat⟩ := decodeFrame_cases h
    refine ⟨hlen, (take_four_eq_magic_iff (by omega)).1 hmagic, ?_⟩
    obtain ⟨h0, h10, -⟩ | ⟨n, rfl, h0, htotal, -⟩ := hformat
    · exact h10.trans (if_pos h0).symm
    · exact htotal.trans (if_neg h0).symm
  · rintro ⟨hlen, hmagic, htotal⟩
    rw [← take_four_eq_magic_iff (by omega)] at hmagic
    split at htotal
    next h0 => exact ⟨_, decodeFrame_of_length_zero htotal hmagic h0⟩
    next h0 => exact ⟨_, decodeFrame_of_length_ne_zero htotal hmagic rfl h0⟩

/-! ### Frames as bytes -/

/-- R100: what has an encoding as wire bytes is the reception of these bytes. -/
theorem exec_eq_rxParse_of_encode {i : Instr} {bs : List Byte} (h : encode i = some (.frame bs)) (s : State) :
    exec i s = rxParse bs s := by
  cases i with
  | frameH | frameHP =>
    cases h
    rfl
  | _ => cases h

/-- R91 to R93: wire bytes are received as bytes, be they a frame or not. -/
theorem execAll_decode_frame (bs : List Byte) (s : State) : execAll (decode (.frame bs)) s = rxParse bs s := by
  simp only [decode]
  split
  next i h =>
    rw [execAll_singleton, exec_eq_rxParse_of_encode (encodeDecodeFrameAgree bs i h).2]
  next => rw [execAll_singleton]; rfl

/-- Settles O31: the two formats by their definitions, any wire bytes by decoding and encoding again. -/
theorem framesAreReceivedAsBytes : Obligations.FramesAreReceivedAsBytes := by
  refine ⟨fun _ _ _ _ => rfl, fun _ _ _ _ _ _ _ => rfl, fun bs rest s hin => ?_⟩
  rw [step_of_inputs_cons hin]
  exact execAll_decode_frame bs { s with inputs := rest }

/-! ### Codes and written words -/

/-- Settles O16: the seven words are evaluated. -/
theorem writtenWordsDecode : Obligations.WrittenWordsDecode := by
  refine ⟨?_, ?_, ?_, ?_, ?_, ?_, ?_⟩ <;> decide

/-- Settles O17, by the definitions of the three codes. -/
theorem codesOfEnumerations : Obligations.CodesOfEnumerations :=
  ⟨rfl, rfl, rfl, fun _ => rfl, rfl, fun _ _ _ _ => rfl, fun _ _ => rfl, fun _ => rfl, fun _ _ _ => rfl⟩

end Sys2Proof.Machine
end

section
/-! SUPPORT. Whole frames received between frames (R81, R83, R93, R94, R133 to R135): the state in which the header
is checked, the state in which the payload is checked, and the statements about what is dispatched. -/

namespace Sys2Proof.Machine

/-! ### The header window -/

/-- R132: the tenth byte of a header is stored, and `HDRCHK` has not run. -/
def headerReceived (t u : Byte) (n h : Half) (s : State) : State :=
  { s with
    state := .collectHeader, headerBuf := s.headerBuf.writeBytes 0 (headerBytes t u n h), headerFilled := 10 }

/-- R131 to R133: a header received between frames is checked. -/
theorem rxParse_headerBytes {s : State} (hst : s.state = .searchFlag) (hf : s.headerFilled = 0)
    (hq : s.queue = []) (t u : Byte) (n h : Half) :
    rxParse (headerBytes t u n h) s = hdrchk (headerReceived t u n h s) :=
  rxParse_header (k := 4) (bs := [t, u, hi8 n, lo8 n, hi8 h]) (b := lo8 h) hst hq (by rw [hf]; rfl)
    (by omega) rfl

/-- R133: the bytes of the window are those of the header. -/
theorem hb_headerReceived {s : State} (hw : s.headerBuf.wf = true) {t u : Byte} {n h : Half} {i : Nat}
    (hi : i < 10) : hb (headerReceived t u n h s) i = (headerBytes t u n h).getD i 0 := by
  have hread := Memory.read_writeBytes (i := 0) (j := i) (bs := headerBytes t u n h) hw
  rw [if_pos ⟨Nat.zero_le i, by rw [length_headerBytes]; omega⟩] at hread
  exact hread

/-- R133: what `HDRCHK` compares. -/
theorem window_headerReceived {s : State} (hw : s.headerBuf.wf = true) (t u : Byte) (n h : Half) :
    windowLength (headerReceived t u n h s) = n ∧
    windowComputed (headerReceived t u n h s) = headerChecksum t u n ∧
    windowReceived (headerReceived t u n h s) = h := by
  have hbyte : ∀ i < 10, hb (headerReceived t u n h s) i = byteAt (headerBytes t u n h ++ []) i :=
    fun i hi => hb_headerReceived hw hi
  obtain ⟨ht, hu, hn, hh⟩ := byteAt_headerBytes t u n h []
  have hlength : windowLength (headerReceived t u n h s) = n := by
    rw [windowLength, hbyte 6 (by omega), hbyte 7 (by omega), hn]
  refine ⟨hlength, ?_, ?_⟩
  · rw [windowComputed, hlength, hbyte 4 (by omega), hbyte 5 (by omega), ht, hu]
  · rw [windowReceived, hbyte 8 (by omega), hbyte 9 (by omega), hh]

/-- R93, R202: the first outcome of `HDRCHK`. -/
theorem hdrchk_of_mismatch {s : State} (h : windowReceived s ≠ windowComputed s) :
    hdrchk s = .next (resync (emit (.hdrCrc (windowComputed s) (windowReceived s)) s)) := by
  rw [hdrchk, if_neg (by simpa [hdrOk] using h.symm)]
  rfl

/-- R94, R203: the last outcome of `HDRCHK`. -/
theorem hdrchk_of_oversized {s : State} (h : windowReceived s = windowComputed s)
    (hmax : s.cfg.maxPayloadLen < (windowLength s).toNat) :
    hdrchk s = .next (resync (emit (.len (windowLength s)) (takeCommand s))) := by
  have h0 : windowLength s ≠ 0 := fun h0 => by simp [h0] at hmax
  rw [hdrchk, if_pos (by simp [hdrOk, h]), if_neg h0, if_neg (by simpa [lengthAccepted] using hmax)]
  rfl

/-- R165: no run of magic bytes and no magic byte at the end. -/
theorem resync_eq_resetParser {s : State} (hrun : ∀ j, 4 ≤ j → j ≤ 9 → ¬ MagicRun s j)
    (h9 : hb s 9 ≠ magic) :
    resync s = resetParser s := by
  obtain ⟨i, hscan, -⟩ | ⟨-, htail, -⟩ | ⟨-, -, heq⟩ := resync_cases s
  · rw [resyncScan_eq_none hrun] at hscan
    cases hscan
  · exact absurd htail h9
  · exact heq

/-- R161: a header of length 0 holds no run of four magic bytes behind its magic number, unless its type or its
last byte is magic. -/
theorem not_magicRun_headerReceived {s : State} (hw : s.headerBuf.wf = true) {t u : Byte} {h : Half}
    (ht : t ≠ magic) (hh : lo8 h ≠ magic) {j : Nat} (h4 : 4 ≤ j) (h9 : j ≤ 9) :
    ¬ MagicRun (headerReceived t u 0 h s) j := by
  intro hrun
  have hbyte : ∀ i < 10, j - 4 < i → i ≤ j → (headerBytes t u 0 h).getD i 0 = magic := fun i hi hlo hhi => by
    rw [← hb_headerReceived hw hi]
    have := hrun (j - i) (by omega)
    rwa [Nat.sub_sub_self hhi] at this
  rcases Nat.lt_or_ge j 8 with hj | hj
  · exact ht (hbyte 4 (by omega) (by omega) h4)
  · rcases Nat.eq_or_lt_of_le h9 with rfl | hj'
    · exact hh (hbyte 9 (by omega) (by omega) (by omega))
    · have hlen : hi8 0 = magic := hbyte 6 (by omega) (by omega) (by omega)
      exact absurd hlen (by decide)

/-- Settles O42: `HDRCHK` finds the mismatch, and the resync finds no magic byte to keep. -/
theorem damagedHeaderIsNotDispatched : Obligations.DamagedHeaderIsNotDispatched := by
  rintro t u h s ⟨hinv, hq⟩ hst hf hne
  have hw : s.headerBuf.wf = true := hinv.memory.1
  obtain ⟨-, hcomputed, hreceived⟩ := window_headerReceived hw t u 0 h
  have hchk := hdrchk_of_mismatch (s := headerReceived t u 0 h s) (by rwa [hcomputed, hreceived])
  rw [hcomputed, hreceived, ← rxParse_headerBytes hst hf hq] at hchk
  obtain ⟨-, -, -, -, htrace, -⟩ :=
    resync_frame (emit (.hdrCrc (headerChecksum t u 0) h) (headerReceived t u 0 h s))
  refine ⟨_, hchk, htrace, fun ht hh => ?_⟩
  have hlast : hb (headerReceived t u 0 h s) 9 ≠ magic := by rwa [hb_headerReceived hw (by omega)]
  have hreset : resync (emit (.hdrCrc (headerChecksum t u 0) h) (headerReceived t u 0 h s)) =
      resetParser (emit (.hdrCrc (headerChecksum t u 0) h) (headerReceived t u 0 h s)) :=
    resync_eq_resetParser (fun _ => not_magicRun_headerReceived hw ht hh) hlast
  rw [hreset]
  exact ⟨rfl, rfl⟩

/-- Settles O43: `HDRCHK` finds the length too large, and no outcome of the resync touches the payload. -/
theorem oversizedHeaderIsRefused : Obligations.OversizedHeaderIsRefused := by
  rintro t u n s ⟨hinv, hq⟩ hst hf hmax
  obtain ⟨hlength, hcomputed, hreceived⟩ := window_headerReceived hinv.memory.1 t u n (headerChecksum t u n)
  have hchk := hdrchk_of_oversized (hreceived.trans hcomputed.symm) (by rwa [hlength])
  rw [hlength, ← rxParse_headerBytes hst hf hq] at hchk
  obtain ⟨-, hpayload, -, -, htrace, -, -, -, hstate, -⟩ :=
    resync_frame (emit (.len n) (takeCommand (headerReceived t u n (headerChecksum t u n) s)))
  exact ⟨_, hchk, htrace, hpayload, hstate⟩

/-! ### The payload -/

/-- R134: a frame is complete, its payload and payload checksum `c` are stored, and `PAYCHK` has not run. -/
def frameReceived (t u : Byte) (n : Half) (p : List Byte) (c : Half) (s : State) : State :=
  { s with
    state := .collectData
    headerBuf := s.headerBuf.writeBytes 0 (headerBytes t u n (headerChecksum t u n)), headerFilled := 10
    targetLen := n, receivedLen := u16 (n.toNat + 2), cmdType := t, cmdSubtype := u, cmdLength := n
    payload := s.payload.writeBytes 0 (p ++ fieldBytes c) }

/-- R133: the fields of the window become the command, and its payload is awaited. -/
theorem enterData_takeCommand (s : State) : enterData (takeCommand s) = { s with
    state := .collectData, targetLen := windowLength s, receivedLen := 0
    cmdType := hb s 4, cmdSubtype := hb s 5, cmdLength := windowLength s } := rfl

/-- R133: a header with its right checksum and an accepted length opens a payload. -/
theorem hdrchk_headerReceived {s : State} (hw : s.headerBuf.wf = true) {t u : Byte} {n : Half} (h0 : n ≠ 0)
    (hmax : n.toNat ≤ s.cfg.maxPayloadLen) :
    hdrchk (headerReceived t u n (headerChecksum t u n) s) = .next
      { headerReceived t u n (headerChecksum t u n) s with
        state := .collectData, targetLen := n, receivedLen := 0, cmdType := t, cmdSubtype := u, cmdLength := n } := by
  obtain ⟨ht, hu, hlength, -, hnext⟩ := hdrchk_of_header
    (s := headerReceived t u n (headerChecksum t u n) s) (fun i hi => hb_headerReceived hw hi) hmax
  rw [hnext h0, enterData_takeCommand, hlength, ht, hu]

/-- R133, R134: a frame with a payload received between frames has its payload checked, and what that puts into
the queue is received (R130, R167). -/
theorem rxParse_payloadFrameBytes {s : State} (hinv : Inv s) (hst : s.state = .searchFlag)
    (hf : s.headerFilled = 0) {t u : Byte} {n : Half} {p : List Byte} (h0 : n ≠ 0)
    (hmax : n.toNat ≤ s.cfg.maxPayloadLen) (hp : p.length = n.toNat) (c : Half) :
    rxParse (payloadFrameBytes t u n (headerChecksum t u n) p c) s =
      andThen (paychk (frameReceived t u n p c s)) fun r => rxParse r.queue (setQueue [] r) := by
  obtain ⟨hrx, hq⟩ := hinv
  obtain ⟨-, hcap, -, hfits, -⟩ := hrx.cfg
  have hsplit : p ++ fieldBytes c = (p ++ [hi8 c]) ++ [lo8 c] := by simp [fieldBytes]
  rw [payloadFrameBytes, List.append_assoc, rxParse_append, rxParse_headerBytes hst hf hq,
    hdrchk_headerReceived hrx.memory.1 h0 hmax, andThen_next, hsplit]
  refine Eq.trans (rxParse_completeData rfl (by exact hq) ?_ (by exact hcap) ?_) ?_
  · show n.toNat + 2 ≤ s.cfg.payloadCap
    omega
  · show 0 + (p ++ [hi8 c]).length = n.toNat + 1
    simp [hp]
  · rw [← hsplit]
    rfl

/-- R134: the payload and its checksum as they stand in the buffer. -/
theorem read_frameReceived {s : State} (hw : s.payload.wf = true) {t u : Byte} {n : Half} {p : List Byte}
    (hp : p.length = n.toNat) (c : Half) (i : Nat) :
    (frameReceived t u n p c s).payload.read i =
      if i < n.toNat + 2 then (p ++ fieldBytes c).getD i 0 else s.payload.read i := by
  have hlen : (p ++ fieldBytes c).length = n.toNat + 2 := by simp [fieldBytes, hp]
  refine (Memory.read_writeBytes hw).trans ?_
  simp only [hlen, Nat.zero_le, true_and, Nat.zero_add, Nat.sub_zero]

/-- R30, R135: `PAYCHK` sees the payload and the checksum of the frame. -/
theorem payload_frameReceived {s : State} (hw : s.payload.wf = true) {t u : Byte} {n : Half} {p : List Byte}
    (hp : p.length = n.toNat) (c : Half) :
    pl (frameReceived t u n p c s) n.toNat = p ∧ payloadReceived (frameReceived t u n p c s) = c := by
  have hread := read_frameReceived (s := s) (t := t) (u := u) hw hp c
  constructor
  · have hstored : (frameReceived t u n p c s).payload.readBytes 0 (n.toNat + 2) = p ++ fieldBytes c := by
      have hlen : (p ++ fieldBytes c).length = n.toNat + 2 := by simp [fieldBytes, hp]
      rw [← hlen]
      exact Memory.readBytes_writeBytes hw
    rw [Memory.readBytes_add] at hstored
    exact (List.append_inj hstored (by rw [Memory.length_readBytes, hp])).1
  · have hcrc : ∀ k < 2, (p ++ fieldBytes c).getD (n.toNat + k) 0 = (fieldBytes c).getD k 0 := fun k _ => by
      rw [← hp]
      exact byteAt_append_right p (fieldBytes c) k
    have hhi := (hread n.toNat).trans ((if_pos (by omega)).trans (hcrc 0 (by omega)))
    have hlo := (hread (n.toNat + 1)).trans ((if_pos (by omega)).trans (hcrc 1 (by omega)))
    exact (congrArg₂ be16 hhi hlo).trans (be16_hi8_lo8 c)

/-- R135, R140: the first outcome of `PAYCHK`. -/
theorem paychk_of_match {s : State} (hcap : s.targetLen.toNat + 2 ≤ s.cfg.payloadCap)
    (hl : s.cmdLength = s.targetLen) (h : payloadReceived s = payloadComputed s) :
    paychk s = .next
      (resetParser (emit (.dispatch s.cmdType s.cmdSubtype s.cmdLength (pl s s.cmdLength.toNat)) s)) := by
  have hdispatch := dispatchCommand_eq_next (s := s).2 ⟨by rw [hl]; omega, rfl⟩
  rw [paychk, withPayload_of_le hcap, if_pos (by simp [payOk, h]), hdispatch, andThen_next]

/-- R30: wire offset `10 + i` of a frame with a payload is index `i` of the payload buffer. -/
theorem getD_payload_eq_frameByte {n : Half} {p : List Byte} {i : Nat} (hp : p.length = n.toNat) (h0 : n ≠ 0)
    (hi : i < n.toNat + 2) (t u : Byte) (old : Nat → Byte) :
    (p ++ fieldBytes (payloadChecksum p)).getD i 0 = frameByte t u n p old (10 + i) := by
  unfold frameByte
  rw [if_neg (by omega), if_neg (by omega), if_neg (by omega), if_neg (by omega), if_neg (by omega),
    if_neg (by omega), if_neg (by omega), if_neg h0, Nat.add_sub_cancel_left]
  rcases Nat.lt_trichotomy i n.toNat with hlt | rfl | hgt
  · rw [if_pos (by omega), List.getD_append _ _ _ _ (hp ▸ hlt)]
  · rw [if_neg (by omega), if_pos rfl, ← hp]
    exact byteAt_append_right p _ 0
  · obtain rfl : i = n.toNat + 1 := by omega
    rw [if_neg (by omega), if_neg (by omega), if_pos (by omega), ← hp]
    exact byteAt_append_right p _ 1

/-- R81: a header byte does not depend on what stood there before. -/
theorem frameByte_header (t u : Byte) (n : Half) (p : List Byte) (old old' : Nat → Byte) {i : Nat} (hi : i < 10) :
    frameByte t u n p old i = frameByte t u n p old' i := by
  interval_cases i <;> rfl

/-- R35, R142: between frames there is nothing to reset. -/
theorem Inv.resetParser_eq_self {s : State} (hinv : Inv s) (hst : s.state = .searchFlag) (hf : s.headerFilled = 0) :
    resetParser s = s := by
  obtain ⟨-, htarget, hreceived, htype, hsubtype, hlength⟩ := hinv.1.inv3 hst
  cases s
  simp_all [resetParser, enter, clearFrame, u16]

/-- R142: after a complete frame the decoder is where it was, but for the bytes in its buffers and the trace. -/
theorem resetParser_frameReceived {s : State} (hinv : Inv s) (hst : s.state = .searchFlag)
    (hf : s.headerFilled = 0) (t u : Byte) (n : Half) (p : List Byte) (c : Half) (es : List Event) :
    setQueue [] (resetParser { frameReceived t u n p c s with trace := es }) = { s with
      headerBuf := (frameReceived t u n p c s).headerBuf
      payload := (frameReceived t u n p c s).payload, trace := es } := by
  have hidle : setQueue [] (resetParser s) = s := by
    rw [hinv.resetParser_eq_self hst hf, setQueue, ← hinv.2]
  exact congrArg (fun r : State => { r with
    headerBuf := (frameReceived t u n p c s).headerBuf
    payload := (frameReceived t u n p c s).payload, trace := es }) hidle

/-- R135, R140: a payload with its right checksum is dispatched. -/
theorem paychk_frameReceived {s : State} (hinv : Inv s) {t u : Byte} {n : Half} {p : List Byte}
    (hmax : n.toNat ≤ s.cfg.maxPayloadLen) (hp : p.length = n.toNat) :
    paychk (frameReceived t u n p (payloadChecksum p) s) = .next
      (resetParser (emit (.dispatch t u n p) (frameReceived t u n p (payloadChecksum p) s))) := by
  obtain ⟨-, hpayload, -⟩ := hinv.1.memory
  obtain ⟨-, -, -, hfits, -⟩ := hinv.1.cfg
  obtain ⟨hpl, hreceived⟩ :=
    payload_frameReceived (s := s) (t := t) (u := u) hpayload hp (payloadChecksum p)
  refine (paychk_of_match (show n.toNat + 2 ≤ s.cfg.payloadCap by omega) rfl
    (hreceived.trans (congrArg payloadChecksum hpl).symm)).trans ?_
  exact congrArg (fun q => Host.Outcome.next
    (resetParser (emit (.dispatch t u n q) (frameReceived t u n p (payloadChecksum p) s)))) hpl

/-- Settles O41: the header opens the payload, the payload is stored byte by byte, and `PAYCHK` dispatches it. -/
theorem payloadFrameDispatches : Obligations.PayloadFrameDispatches := by
  intro t u n p s hinv hst hf h0 hmax hp
  obtain ⟨hheader, hpayload, -⟩ := hinv.1.memory
  refine ⟨(frameReceived t u n p (payloadChecksum p) s).headerBuf,
    (frameReceived t u n p (payloadChecksum p) s).payload, fun i => ?_, fun i => ?_, ?_⟩
  · refine (read_writeHeader t u n p hheader i).trans ?_
    split
    next hi => exact frameByte_header t u n p _ _ hi
    next => rfl
  · rw [read_frameReceived hpayload hp]
    split
    next hi => exact getD_payload_eq_frameByte hp h0 hi t u _
    next => rfl
  · have hqueue : (frameReceived t u n p (payloadChecksum p) s).queue = [] := hinv.2
    refine (rxParse_payloadFrameBytes hinv hst hf h0 hmax hp (payloadChecksum p)).trans ?_
    rw [paychk_frameReceived hinv hmax hp, andThen_next, resetParser_queue, emit_queue, hqueue]
    exact congrArg _ (resetParser_frameReceived hinv hst hf t u n p (payloadChecksum p) _)

end Sys2Proof.Machine
end

section
/-! SUPPORT. A transaction on a stimulus within the bounds of the ports never stops (R149, R216): each operation answers
next from a state that meets R35, and leaves one that does. -/

namespace Sys2Proof.Machine

/-- R149: one byte. -/
theorem Inv.rxByte_total {s : State} (h : Inv s) (b : Byte) : ∃ t, rxByte b s = .next t ∧ Inv t :=
  (h.1.setQueue [b]).drain (rank_lt_loopFuel (setQueue [b] s))

/-- R144, R149: a chunk, by its bytes. -/
theorem Inv.rxParse_total : ∀ {s : State} (_ : Inv s) (bs : List Byte), ∃ t, rxParse bs s = .next t
  | s, _, [] => ⟨s, rfl⟩
  | s, h, b :: bs => by
    obtain ⟨u, hu, hinv⟩ := h.rxByte_total b
    obtain ⟨t, ht⟩ := hinv.rxParse_total bs
    exact ⟨t, andThen_eq_next.2 ⟨u, hu, ht⟩⟩

/-- U11: a `CSUM.PAY` has a length that the port accepts. -/
def Admitted (i : Instr) : Prop := ∀ p, i = .csumPay p → p.length ≤ 65535

/-- R12, R149: every operation that a port or the wire can ask for. -/
theorem Inv.exec_total {s : State} (h : Inv s) {i : Instr} (hi : i.isInternal = false) (ha : Admitted i) :
    ∃ t, exec i s = .next t := by
  cases i with
  | rxReset | csumHdr => exact ⟨_, rfl⟩
  | rxByte b =>
    obtain ⟨t, ht, -⟩ := h.rxByte_total b
    exact ⟨t, ht⟩
  | txEncode v t u n p cap =>
    obtain ⟨m, r, -, hnext⟩ := execTxEncode_spec v t u n p cap s.cfg s.dest
    exact ⟨_, hnext s rfl rfl⟩
  | csumPay p => exact ⟨_, exec_csumPay_of_le (ha p rfl) s⟩
  | frameH | frameHP | rxParse => exact h.rxParse_total _
  | hdrchk | paychk | dispatch | resetInt | resync | payrescan | txFillhdr => cases hi

/-- R216: operations one after the other. -/
theorem Inv.execAll_total : ∀ {s : State} (_ : Inv s) {is : List Instr},
    (∀ i ∈ is, i.isInternal = false ∧ Admitted i) → ∃ t, execAll is s = .next t
  | s, _, [], _ => ⟨s, rfl⟩
  | s, h, i :: is, hall => by
    obtain ⟨hi, ha⟩ := hall i List.mem_cons_self
    obtain ⟨u, hu⟩ := h.exec_total hi ha
    obtain ⟨t, ht⟩ := (keptByPorts_inv.exec hi h hu).execAll_total
      fun j hj => hall j (List.mem_cons_of_mem i hj)
    exact ⟨t, andThen_eq_next.2 ⟨u, hu, ht⟩⟩

/-- R89, U11: a stimulus within the bounds of the ports asks for no `CSUM.PAY` that is too long. -/
theorem admitted_of_mem_decode {x : Stimulus} (hx : x.wf = true) {i : Instr} (h : i ∈ decode x) :
    Admitted i := by
  rintro p rfl
  cases x with
  | ports q =>
    obtain ⟨-, hi⟩ | ⟨-, hi⟩ | ⟨-, hi⟩ | ⟨-, hi⟩ | ⟨-, hi⟩ := mem_decodePorts.1 h <;> cases hi
    exact of_decide_eq_true hx
  | chunk bs => cases List.mem_singleton.1 h
  | frame bs =>
    simp only [decode] at h
    split at h
    next hf =>
      obtain rfl := List.mem_singleton.1 h
      obtain ⟨-, -, ⟨-, -, hi⟩ | ⟨n, -, -, -, hi⟩⟩ := decodeFrame_cases hf <;> cases hi
    next => cases List.mem_singleton.1 h

/-- Settles O52: the operations of the next stimulus are admitted ones. -/
theorem stepNeverStops : Obligations.StepNeverStops := by
  intro s hinv hwf
  cases hin : s.inputs with
  | nil => exact ⟨s, step_of_inputs_nil hin⟩
  | cons x rest =>
    rw [step_of_inputs_cons hin]
    have hx : x.wf = true := hwf x (by rw [hin]; rfl)
    exact (keptByPorts_inv.take rest hinv).execAll_total fun i hi =>
      ⟨not_isInternal_of_mem_decode hi, admitted_of_mem_decode hx hi⟩

end Sys2Proof.Machine
end

section
/-! SUPPORT. The checksum unit (R110 to R122): the two primitives on quotients and remainders, what two folds keep, the
two sums as sums of words, and the values the port answers. -/

namespace Sys2Proof.Machine

/-! ### The primitives -/

theorem fold16_le_of_lt {x : Nat} (h : x < 2 ^ 32) : fold16 x ≤ 0x1FFFE := by
  rw [fold16_eq]
  omega

theorem fold16_le {x : Nat} (h : x ≤ 0x1FFFE) : fold16 x ≤ 0xFFFF := by
  rw [fold16_eq]
  omega

theorem fold16_eq_self {x : Nat} (h : x ≤ 0xFFFF) : fold16 x = x := by
  rw [fold16_eq]
  omega

theorem fold16_fold16_le {x : Nat} (h : x < 2 ^ 32) : fold16 (fold16 x) ≤ 0xFFFF :=
  fold16_le (fold16_le_of_lt h)

/-- R121: 65536 is 1 modulo 0xFFFF, so a fold keeps the residue. -/
theorem fold16_mod (x : Nat) : fold16 x % 0xFFFF = x % 0xFFFF := by
  rw [fold16_eq]
  omega

theorem fold16_eq_zero {x : Nat} : fold16 x = 0 ↔ x = 0 := by
  rw [fold16_eq]
  omega

/-- R120: a fold that is not needed changes nothing, so a conditional fold is a fold. -/
theorem ite_fold16 (x : Nat) : (if x ≤ 0xFFFF then x else fold16 x) = fold16 x := by
  split
  next h => exact (fold16_eq_self h).symm
  next => rfl

theorem toNat_not16 {v : Nat} (h : v ≤ 0xFFFF) : (not16 v).toNat = 0xFFFF - v := by
  rw [not16, BitVec.toNat_not, toNat_u16 (Nat.lt_succ_of_le h)]

theorem not16_eq_xor (v : Nat) : not16 v = BitVec.ofNat 16 v ^^^ 0xFFFF :=
  BitVec.xor_allOnes.symm

/-- Settles O5: the laws of one fold, two of them in a row, and the complement. -/
theorem foldAndNotValues : Obligations.FoldAndNotValues := by
  refine ⟨fold16_eq, fun x hx => ⟨fold16_le_of_lt hx, fold16_fold16_le hx, ?_⟩, fun _ => fold16_le,
    fun _ => fold16_eq_self, fun v hv => ⟨toNat_not16 hv, not16_eq_xor v⟩⟩
  rw [ite_fold16]
  exact (ite_fold16 (fold16 x)).symm

/-! ### Two folds and the complement -/

theorem fold16_fold16_mod (x : Nat) : fold16 (fold16 x) % 0xFFFF = x % 0xFFFF := by
  rw [fold16_mod, fold16_mod]

theorem fold16_fold16_eq_zero {x : Nat} : fold16 (fold16 x) = 0 ↔ x = 0 := by
  rw [fold16_eq_zero, fold16_eq_zero]

/-- R121: of the two multiples of 0xFFFF that fit 16 bits, only 0 folds to 0. -/
theorem fold16_fold16_of_mod_eq_zero {x : Nat} (h : x < 2 ^ 32) (h0 : x ≠ 0) (hx : x % 0xFFFF = 0) :
    fold16 (fold16 x) = 0xFFFF := by
  have hle := fold16_fold16_le h
  have hmod := fold16_fold16_mod x
  have hne := mt fold16_fold16_eq_zero.1 h0
  omega

/-- R110, R111: the end of both checksums with quotients and remainders. -/
theorem finishSum_eq (s : Nat) :
    finishSum s = ~~~ BitVec.ofNat 16
      ((fun x => x % 65536 + x / 65536) ((fun x => x % 65536 + x / 65536) s)) := by
  rw [finishSum, not16, u16, fold16_eq, fold16_eq]

theorem finishSum_eq_ones {s : Nat} (h : s < 2 ^ 32) : finishSum s = 0xFFFF ↔ s = 0 := by
  have hle := fold16_fold16_le h
  rw [← fold16_fold16_eq_zero, ← BitVec.toNat_inj, toNat_finishSum h]
  change 65535 - _ = 65535 ↔ _
  omega

theorem finishSum_eq_zero {s : Nat} (h : s < 2 ^ 32) : finishSum s = 0 ↔ fold16 (fold16 s) = 0xFFFF := by
  have hle := fold16_fold16_le h
  rw [← BitVec.toNat_inj, toNat_finishSum h]
  change 65535 - _ = 0 ↔ _
  omega

/-! ### The header sum -/

theorem headerSum_eq (t u : Byte) (n : Half) :
    headerSum t u n = 0xFCFC + (t.toNat * 256 + u.toNat) + n.toNat := by
  rw [headerSum, toNat_be16]

theorem headerSum_lt (t u : Byte) (n : Half) : headerSum t u n < 2 ^ 18 :=
  (headerSum_le t u n).trans_lt (by decide)

/-- R112: the seed keeps the header sum off 0. -/
theorem headerChecksum_ne_ones (t u : Byte) (n : Half) : headerChecksum t u n ≠ 0xFFFF := by
  intro h
  have hlt := headerSum_lt t u n
  have hzero : headerSum t u n = 0 := (finishSum_eq_ones (by omega)).1 h
  rw [headerSum_eq] at hzero
  omega

/-- Settles O1: the seeded sum of words, ended as both checksums are. -/
theorem csumHdrAnswersFoldedSum : Obligations.CsumHdrAnswersFoldedSum := by
  intro t u n s
  refine ⟨headerChecksum t u n, ?_, headerChecksum_ne_ones t u n, rfl⟩
  rw [headerChecksum, headerSum_eq, finishSum_eq]

/-! ### The payload sum -/

/-- R113: the payload sum word by word, by index. -/
theorem payloadSum_eq_sum_range : ∀ p : List Byte,
    payloadSum p = ((List.range ((p.length + 1) / 2)).map fun j =>
      (p.getD (2 * j) 0).toNat * 256 + (p.getD (2 * j + 1) 0).toNat).sum
  | [] => rfl
  | [a] => by simp [payloadSum, toNat_be16]
  | a :: b :: rest => by
    have hlen : ((a :: b :: rest).length + 1) / 2 = (rest.length + 1) / 2 + 1 := by
      simp only [List.length_cons]
      omega
    rw [hlen, List.range_succ_eq_map, List.map_cons, List.sum_cons, List.map_map, payloadSum,
      payloadSum_eq_sum_range rest, toNat_be16]
    rfl

/-- R113: an odd-length sequence is summed as if a zero byte stood behind it. -/
theorem payloadSum_append_zero : ∀ p : List Byte, p.length % 2 = 1 → payloadSum (p ++ [0]) = payloadSum p
  | [], h => by cases h
  | [_], _ => rfl
  | a :: b :: rest, h => by
    have hrest : rest.length % 2 = 1 := by
      simp only [List.length_cons] at h
      omega
    exact congrArg ((be16 a b).toNat + ·) (payloadSum_append_zero rest hrest)

/-- Settles O2: the sum by index, and the two paddings. -/
theorem csumPayAnswersIndexedSum : Obligations.CsumPayAnswersIndexedSum := by
  refine ⟨fun p s hp => ?_, fun p => ⟨fun hodd => ?_, fun heven => ?_⟩⟩
  · rw [exec_csumPay_of_le hp, payloadChecksum, finishSum_eq, payloadSum_eq_sum_range]
    rfl
  · rw [payloadChecksum, payloadChecksum, payloadSum_append_zero p hodd]
  · have hpad : payloadSum [0, 0] = 0 := rfl
    rw [payloadChecksum, payloadChecksum, payloadSum_append p _ heven, hpad, Nat.add_zero]

theorem payloadSum_le_of_length_le {p : List Byte} {m : Nat} (h : p.length ≤ m) :
    payloadSum p ≤ (m + 1) / 2 * 0xFFFF :=
  (payloadSum_le p).trans
    (Nat.mul_le_mul_right _ (Nat.div_le_div_right (Nat.add_le_add_right h 1)))

/-- R119: a sequence that the port accepts. -/
theorem payloadSum_lt {p : List Byte} (h : p.length ≤ 65535) : payloadSum p < 2 ^ 31 :=
  (payloadSum_le_of_length_le h).trans_lt (by decide)

/-- Settles O4: the bounds on both sums, and `ACC_W` is at least 32. -/
theorem accumulatorNeverOverflows : Obligations.AccumulatorNeverOverflows := by
  refine ⟨fun t u n => ⟨headerSum_le t u n, headerSum_lt t u n⟩,
    fun p => ⟨payloadSum_le p, fun hp => ?_, fun hp => ?_⟩,
    fun c t u n p hc hp => ?_⟩
  · exact ⟨payloadSum_le_of_length_le hp, payloadSum_lt hp⟩
  · have hle : payloadSum p ≤ 0x03F8FC07 := payloadSum_le_of_length_le hp
    exact ⟨hle, hle.trans_lt (by decide)⟩
  · obtain ⟨-, -, -, -, -, hacc, -⟩ := hc
    have hpow (k : Nat) (hk : k ≤ 32) : 2 ^ k ≤ 2 ^ c.accW :=
      Nat.pow_le_pow_right (by decide) (hk.trans hacc)
    exact ⟨(headerSum_lt t u n).trans_le (hpow 18 (by decide)),
      (payloadSum_lt hp).trans_le (hpow 31 (by decide))⟩

/-! ### Sums of words -/

/-- R113: the payload sum of whole words is their sum. -/
theorem payloadSum_flatMap_fieldBytes : ∀ v : List Half,
    payloadSum (v.flatMap fieldBytes) = (v.map BitVec.toNat).sum
  | [] => rfl
  | x :: v => by
    change (be16 (hi8 x) (lo8 x)).toNat + payloadSum (v.flatMap fieldBytes) = _
    rw [be16_hi8_lo8, payloadSum_flatMap_fieldBytes v, List.map_cons, List.sum_cons]

theorem payloadChecksum_eq_of_sum_eq {v w : List Half}
    (h : (v.map BitVec.toNat).sum = (w.map BitVec.toNat).sum) :
    payloadChecksum (v.flatMap fieldBytes) = payloadChecksum (w.flatMap fieldBytes) := by
  rw [payloadChecksum, payloadChecksum, payloadSum_flatMap_fieldBytes, payloadSum_flatMap_fieldBytes, h]

theorem toNat_be16_eq_zero {a b : Byte} : (be16 a b).toNat = 0 ↔ a = 0 ∧ b = 0 := by
  rw [toNat_be16, ← BitVec.toNat_inj, ← BitVec.toNat_inj]
  change _ ↔ a.toNat = 0 ∧ b.toNat = 0
  omega

/-- R121: no word is negative, so a sum of 0 has only zero words. -/
theorem payloadSum_eq_zero : ∀ {p : List Byte}, payloadSum p = 0 ↔ ∀ b ∈ p, b = 0
  | [] => by simp [payloadSum]
  | [a] => by simp [payloadSum, toNat_be16_eq_zero]
  | a :: b :: rest => by
    rw [payloadSum, Nat.add_eq_zero_iff, toNat_be16_eq_zero, payloadSum_eq_zero, List.forall_mem_cons,
      List.forall_mem_cons, and_assoc]

/-- Settles O7: two folds and the residue, and a payload checksum as the end of a sum of words. -/
theorem onesComplementFacts : Obligations.OnesComplementFacts := by
  refine ⟨fun x hx => ⟨fold16_fold16_mod x, fold16_fold16_le hx, fold16_fold16_eq_zero,
      fold16_fold16_of_mod_eq_zero hx⟩,
    fun _ _ => payloadChecksum_eq_of_sum_eq,
    fun v w hperm => payloadChecksum_eq_of_sum_eq (hperm.map BitVec.toNat).sum_eq, fun p hp => ?_⟩
  have hlt : payloadSum p < 2 ^ 32 := (payloadSum_lt hp).trans (by decide)
  exact ⟨(finishSum_eq_ones hlt).trans payloadSum_eq_zero, finishSum_eq_zero hlt⟩

/-- R122: the two magic words add up to the seed. -/
theorem payloadSum_header (t u : Byte) (n : Half) :
    payloadSum [magic, magic, magic, magic, t, u, hi8 n, lo8 n] = headerSum t u n := by
  have hmagic : (be16 magic magic).toNat + (be16 magic magic).toNat = hdrSeed := by decide
  simp only [payloadSum, headerSum, be16_hi8_lo8, ← hmagic]
  omega

/-- Settles O8: equal sums end in equal checksums. -/
theorem seedStandsForMagicWords : Obligations.SeedStandsForMagicWords :=
  fun t u n => congrArg finishSum (payloadSum_header t u n)

end Sys2Proof.Machine
end

section
/-! SUPPORT. The decoder of spec/41_decoder.md as statements about its operations: reception never stops, one received
byte in each decoder state, the loop of R130, the two checks, and the frames that need the payload rescan. -/

namespace Sys2Proof.Machine

/-! ### Reception -/

/-- R144, R149: a chunk is received, and R35 holds again. -/
theorem Inv.rxParse_total_inv {s : State} (h : Inv s) (bs : List Byte) : ∃ t, rxParse bs s = .next t ∧ Inv t := by
  obtain ⟨t, ht⟩ := h.rxParse_total bs
  exact ⟨t, ht, keptByPorts_inv.parse h ht⟩

/-- Settles O27: one byte is the invariant of the loop of R130, and a frame is a chunk of its bytes. -/
theorem receptionIsTotal : Obligations.ReceptionIsTotal := fun _ h =>
  ⟨h.rxByte_total, h.rxParse_total_inv, fun _ _ _ => h.rxParse_total_inv _,
    fun _ _ _ _ _ _ => h.rxParse_total_inv _⟩

/-- Settles O26: the bound of R168 is above the measure that each round of the loop decreases. -/
theorem replayIsReception : Obligations.ReplayIsReception := fun q s _ hfuel =>
  drain_eq_rxParse q s ((rank_lt_loopFuel (setQueue q s)).trans_le hfuel)

/-- Settles O30: a chunk is received byte by byte, so it can be cut anywhere. -/
theorem chunkingInvariance : Obligations.ChunkingInvariance := rxParse_append

/-- R144: receiving bytes in order is a left fold over the results. -/
theorem foldl_andThen_rxByte (bs : List Byte) (r : Result) :
    bs.foldl (fun r b => andThen r (rxByte b)) r = andThen r (rxParse bs) := by
  induction bs generalizing r with
  | nil => cases r <;> rfl
  | cons b bs ih =>
    rw [List.foldl_cons, ih, andThen_assoc]
    rfl

/-- Settles O29: the fold that starts with the state itself. -/
theorem parseIsFoldOfBytes : Obligations.ParseIsFoldOfBytes := fun bs s =>
  (foldl_andThen_rxByte bs (.next s)).symm

/-- R38: the decoder's reset goes to `S0`. -/
theorem resetParser_eq_atS0 (s : State) : resetParser s = atS0 s := rfl

/-- Settles O21: both operations are `resetParser`, which does not read what it clears. -/
theorem resetOperationsGoToS0 : Obligations.ResetOperationsGoToS0 := fun s =>
  ⟨congrArg Host.Outcome.next (resetParser_eq_atS0 s), congrArg Host.Outcome.next (resetParser_eq_atS0 s), rfl⟩

/-! ### One received byte -/

/-- R130, R131: a byte in SearchFlag. -/
theorem rxByte_of_searchFlag {s : State} (hst : s.state = .searchFlag) (b : Byte) :
    rxByte b s = .next (searchArm b (setQueue [] s)) := by
  have hc : consume b (setQueue [] s) = .next (searchArm b (setQueue [] s)) := by
    simp only [consume, setQueue_state, hst]
  have hqueue : (searchArm b (setQueue [] s)).queue = [] := by
    obtain ⟨-, e⟩ | ⟨-, -, e⟩ | ⟨-, -, e⟩ := searchArm_cases b (setQueue [] s) <;> rw [e] <;> rfl
  exact rxByte_of_consume hc hqueue

/-- R130, R132: a byte in CollectHeader before the tenth. -/
theorem rxByte_storeHeader {s : State} (hst : s.state = .collectHeader) (h : s.headerFilled.toNat < 9)
    (b : Byte) : rxByte b s = .next (storeHeader b (setQueue [] s)) := by
  refine rxByte_of_consume ?_ rfl
  simp only [consume, setQueue_state, hst]
  exact headerArm_store h

/-- R130, R132: the tenth byte of a header. `HDRCHK` puts nothing into the queue. -/
theorem rxByte_hdrchk {s : State} (hst : s.state = .collectHeader) (h : s.headerFilled.toNat = 9) (b : Byte) :
    rxByte b s = hdrchk (storeHeader b (setQueue [] s)) := by
  obtain ⟨t, ht⟩ := hdrchk_total (storeHeader b (setQueue [] s))
  rw [ht]
  refine rxByte_of_consume ?_ (hdrchk_queue ht).1
  simp only [consume, setQueue_state, hst]
  exact (headerArm_last (s := setQueue [] s) h).trans ht

/-- R130, R134: a byte in CollectData before the last. -/
theorem rxByte_storePayload {s : State} (hst : s.state = .collectData)
    (h : s.receivedLen.toNat < s.cfg.payloadCap) (hl : s.receivedLen.toNat ≠ s.targetLen.toNat + 1) (b : Byte) :
    rxByte b s = .next (storePayload b (setQueue [] s)) := by
  refine rxByte_of_consume ?_ rfl
  simp only [consume, setQueue_state, hst]
  exact dataArm_store h hl

/-- R130, R134, R167: the last byte of a payload, and the reception of what `PAYCHK` puts into the queue. -/
theorem rxByte_paychk {s : State} (hst : s.state = .collectData)
    (h : s.receivedLen.toNat < s.cfg.payloadCap) (hl : s.receivedLen.toNat = s.targetLen.toNat + 1) (b : Byte) :
    rxByte b s = andThen (paychk (storePayload b (setQueue [] s))) fun t => rxParse t.queue (setQueue [] t) := by
  rw [rxByte_eq]
  simp only [consume, setQueue_state, hst]
  rw [dataArm_last (s := setQueue [] s) h hl]
  exact congrArg _ (funext fun t => drain_eq_rxParse t.queue t (rank_lt_loopFuel t))

/-- R131: the header buffer once the magic number is complete. -/
theorem read_primeHeader {s : State} (hw : s.headerBuf.wf = true) (i : Nat) :
    (primeHeader s).headerBuf.read i = if i < 4 then magic else hb s i := by
  refine (Memory.read_writeBytes hw).trans ?_
  by_cases hi : i < 4
  · rw [if_pos ⟨Nat.zero_le i, hi⟩, if_pos hi]
    interval_cases i <;> rfl
  · rw [if_neg fun h => hi h.2, if_neg hi]
    rfl

/-- Settles O23: the three outcomes of the SearchFlag arm. -/
theorem searchFlagByte : Obligations.SearchFlagByte := by
  intro b s hst _ hw
  have hbyte := rxByte_of_searchFlag hst b
  refine ⟨fun hb => hbyte.trans ?_, fun hb hlt => hbyte.trans ?_, fun hb h3 =>
    ⟨(primeHeader s).headerBuf, Memory.wf_writeBytes hw, read_primeHeader hw, hbyte.trans ?_⟩⟩
  · rw [searchArm, if_neg hb]
    rfl
  · rw [searchArm, if_pos hb, if_neg (by rw [setQueue_headerFilled]; omega), countMagic, u16_succ]
    rfl
  · rw [searchArm, if_pos hb, if_pos (by rw [setQueue_headerFilled, h3]; rfl)]
    rfl

/-- Settles O24: the byte is stored, and the tenth one is followed by `HDRCHK`. -/
theorem collectHeaderByte : Obligations.CollectHeaderByte := by
  intro b s hst hle hw
  refine ⟨s.headerBuf.write s.headerFilled.toNat b, Memory.wf_write hw,
    fun i => Memory.read_write s.headerBuf s.headerFilled.toNat i b 0 hw, fun hlt => ?_, fun h9 => ?_⟩
  · refine (rxByte_storeHeader hst hlt b).trans ?_
    rw [storeHeader, u16_succ]
    rfl
  · refine (rxByte_hdrchk hst (by rw [h9]; rfl) b).trans ?_
    rw [storeHeader, u16_succ, setQueue_headerFilled, h9]
    rfl

/-- Settles O25: the byte is stored, and the last one is followed by `PAYCHK` and the replay. -/
theorem collectDataByte : Obligations.CollectDataByte := by
  intro b s hst hle hfits hcap hw
  have hlt : s.receivedLen.toNat < s.cfg.payloadCap := by omega
  refine ⟨s.payload.write s.receivedLen.toNat b, Memory.wf_write hw,
    fun i => Memory.read_write s.payload s.receivedLen.toNat i b 0 hw, fun hmore => ?_, fun hlast => ?_⟩
  · refine (rxByte_storePayload hst hlt hmore.ne b).trans ?_
    rw [storePayload, u16_succ]
    rfl
  · refine (rxByte_paychk hst hlt hlast b).trans ?_
    rw [storePayload, u16_succ]
    rfl

/-! ### HDRCHK, PAYCHK and DISPATCH -/

/-- R133, R141: the second outcome of `HDRCHK`. -/
theorem hdrchk_of_empty {s : State} (h : windowReceived s = windowComputed s) (h0 : windowLength s = 0) :
    hdrchk s = .next (resetParser (emit (.dispatch (hb s 4) (hb s 5) 0 []) (takeCommand s))) := by
  rw [hdrchk, if_pos (by simp [hdrOk, h]), if_pos h0, dispatchCommand_empty (s := takeCommand s) h0]
  rfl

/-- R133: the third outcome of `HDRCHK`. -/
theorem hdrchk_of_accepted {s : State} (h : windowReceived s = windowComputed s) (h0 : windowLength s ≠ 0)
    (hmax : (windowLength s).toNat ≤ s.cfg.maxPayloadLen) :
    hdrchk s = .next (enterData (takeCommand s)) := by
  rw [hdrchk, if_pos (by simp [hdrOk, h]), if_neg h0, if_pos (by simpa [lengthAccepted] using hmax)]

/-- Settles O32: one lemma per outcome. -/
theorem hdrchkOutcomes : Obligations.HdrchkOutcomes := by
  rintro s n r c rfl rfl rfl
  refine ⟨fun h => ?_, fun h h0 => ?_, fun h h0 hmax => ?_, fun h hmax => ?_, hdrchk_total s⟩
  · exact hdrchk_of_mismatch (Ne.symm h)
  · exact hdrchk_of_empty h.symm h0
  · exact hdrchk_of_accepted h.symm h0 hmax
  · exact hdrchk_of_oversized h.symm hmax

/-- R135, R140: the first outcome of `PAYCHK`, whatever command stands in the command fields. -/
theorem paychk_of_dispatch {s : State} (hcap : s.targetLen.toNat + 2 ≤ s.cfg.payloadCap)
    (hl : s.cmdLength.toNat ≤ s.cfg.payloadCap) (h : payloadComputed s = payloadReceived s) :
    paychk s = .next
      (resetParser (emit (.dispatch s.cmdType s.cmdSubtype s.cmdLength (pl s s.cmdLength.toNat)) s)) := by
  rw [paychk, withPayload_of_le hcap, if_pos (by simp [payOk, h]), dispatchCommand_eq_next.2 ⟨hl, rfl⟩,
    andThen_next]

/-- R95, R205: the second outcome of `PAYCHK`. -/
theorem paychk_of_memdump {s : State} (hcap : s.targetLen.toNat + 2 ≤ s.cfg.payloadCap)
    (h : payloadComputed s ≠ payloadReceived s)
    (hm : s.cmdSubtype = s.cfg.memdump0 ∨ s.cmdSubtype = s.cfg.memdump1) :
    paychk s = .next (resetParser s) := by
  rw [paychk, withPayload_of_le hcap, if_neg (by simpa [payOk] using h), if_pos (by simpa [isMemdump] using hm)]

/-- R135, R204: the third outcome of `PAYCHK`. -/
theorem paychk_of_rescan {s : State} (hcap : s.targetLen.toNat + 2 ≤ s.cfg.payloadCap)
    (h : payloadComputed s ≠ payloadReceived s)
    (hm0 : s.cmdSubtype ≠ s.cfg.memdump0) (hm1 : s.cmdSubtype ≠ s.cfg.memdump1) :
    paychk s = payrescan (payloadComputed s) (payloadReceived s) s := by
  rw [paychk, withPayload_of_le hcap, if_neg (by simpa [payOk] using h),
    if_neg (by simpa [isMemdump] using ⟨hm0, hm1⟩)]

/-- Settles O33: one lemma per outcome. -/
theorem paychkOutcomes : Obligations.PaychkOutcomes := by
  rintro s r c hcap hl rfl rfl
  exact ⟨paychk_of_dispatch hcap hl, paychk_of_memdump hcap, paychk_of_rescan hcap, paychk_total hcap hl⟩

/-- Settles O34: the payload of the event is read from the buffer. -/
theorem dispatchEmitsCommand : Obligations.DispatchEmitsCommand := fun s hl =>
  ⟨pl s s.cmdLength.toNat, Memory.length_readBytes _ _ _,
    fun j hj => by rw [pl, Memory.getD_readBytes hj, Nat.zero_add], dispatchCommand_eq_next.2 ⟨hl, rfl⟩⟩

/-! ### Frames received between frames -/

/-- R81: the header window once the ten bytes of a header are received. -/
theorem read_headerReceived {s : State} (hw : s.headerBuf.wf = true) (t u : Byte) (n : Half) (p : List Byte)
    (i : Nat) : (headerReceived t u n (headerChecksum t u n) s).headerBuf.read i =
      if i < 10 then frameByte t u n p (fun _ => 0) i else hb s i := by
  refine (read_writeHeader t u n p hw i).trans ?_
  split
  next hi => exact frameByte_header t u n p _ _ hi
  next => rfl

/-- R141, R142: after a header-only frame the decoder is where it was, but for the header buffer and the trace. -/
theorem resetParser_headerReceived {s : State} (hinv : Inv s) (hst : s.state = .searchFlag)
    (hf : s.headerFilled = 0) (t u : Byte) (n h : Half) (es : List Event) :
    resetParser { takeCommand (headerReceived t u n h s) with trace := es } =
      { s with headerBuf := (headerReceived t u n h s).headerBuf, trace := es } :=
  congrArg (fun r : State => { r with headerBuf := (headerReceived t u n h s).headerBuf, trace := es })
    (hinv.resetParser_eq_self hst hf)

/-- Settles O40: `HDRCHK` finds the checksum right and the length 0. -/
theorem headerOnlyFrameDispatches : Obligations.HeaderOnlyFrameDispatches := by
  intro t u s hinv hst hf
  obtain ⟨hw, -⟩ := hinv.1.memory
  obtain ⟨ht, hu, -, hnext, -⟩ := hdrchk_of_header (s := headerReceived t u 0 (headerChecksum t u 0) s)
    (fun i hi => hb_headerReceived hw hi) (Nat.zero_le _)
  refine ⟨(headerReceived t u 0 (headerChecksum t u 0) s).headerBuf, read_headerReceived hw t u 0 [], ?_⟩
  refine (rxParse_headerBytes hst hf hinv.2 t u 0 (headerChecksum t u 0)).trans ((hnext rfl).trans ?_)
  exact congrArg _ (resetParser_headerReceived hinv hst hf t u 0 (headerChecksum t u 0) _)

/-- R30, R166: what `PAYRESCAN` looks at is the payload and the checksum of the frame. -/
theorem buffered_frameReceived {s : State} (hw : s.payload.wf = true) {t u : Byte} {n : Half} {p : List Byte}
    (hp : p.length = n.toNat) (c : Half) : buffered (frameReceived t u n p c s) = p ++ fieldBytes c := by
  have hlen : n.toNat + 2 = (p ++ fieldBytes c).length := by simp [fieldBytes, hp]
  change (s.payload.writeBytes 0 (p ++ fieldBytes c)).readBytes 0 (n.toNat + 2) = _
  rw [hlen]
  exact Memory.readBytes_writeBytes hw

/-- R30, R135: what `PAYCHK` compares, within the buffer. -/
theorem checksums_frameReceived {s : State} (hinv : Inv s) (t u : Byte) {n : Half} {p : List Byte}
    (hmax : n.toNat ≤ s.cfg.maxPayloadLen) (hp : p.length = n.toNat) (c : Half) :
    (frameReceived t u n p c s).targetLen.toNat + 2 ≤ (frameReceived t u n p c s).cfg.payloadCap ∧
    payloadComputed (frameReceived t u n p c s) = payloadChecksum p ∧
    payloadReceived (frameReceived t u n p c s) = c := by
  obtain ⟨-, hpayload, -⟩ := hinv.1.memory
  obtain ⟨-, -, -, hfits, -⟩ := hinv.1.cfg
  obtain ⟨hpl, hreceived⟩ := payload_frameReceived (s := s) (t := t) (u := u) hpayload hp c
  exact ⟨(Nat.add_le_add_right hmax 2).trans hfits, congrArg payloadChecksum hpl, hreceived⟩

/-- R130: of two queues the later one counts. -/
@[simp] theorem setQueue_setQueue (q q' : List Byte) (s : State) : setQueue q (setQueue q' s) = setQueue q s := rfl

section

variable {s : State} (hinv : Inv s) (hst : s.state = .searchFlag) (hf : s.headerFilled = 0)
  {t u : Byte} {n c : Half} {p : List Byte} (h0 : n ≠ 0) (hmax : n.toNat ≤ s.cfg.maxPayloadLen)
  (hp : p.length = n.toNat) (hc : c ≠ payloadChecksum p)
include hinv hst hf h0 hmax hp hc

/-- R135, R205: a damaged payload of a memdump frame is dropped without an event. -/
theorem rxParse_damagedMemdump (hm : u = s.cfg.memdump0 ∨ u = s.cfg.memdump1) :
    rxParse (payloadFrameBytes t u n (headerChecksum t u n) p c) s = .next { s with
      headerBuf := (frameReceived t u n p c s).headerBuf, payload := (frameReceived t u n p c s).payload } := by
  obtain ⟨hcap, hcomputed, hreceived⟩ := checksums_frameReceived hinv t u hmax hp c
  have hqueue : (frameReceived t u n p c s).queue = [] := hinv.2
  rw [rxParse_payloadFrameBytes hinv hst hf h0 hmax hp,
    paychk_of_memdump hcap (by rw [hcomputed, hreceived]; exact hc.symm) hm,
    andThen_next, resetParser_queue, hqueue]
  exact congrArg _ (resetParser_frameReceived hinv hst hf t u n p c s.trace)

/-- R135, R166, R167, R204: a damaged payload that is no memdump is replayed from its first magic byte. -/
theorem rxParse_damagedPayload (hm0 : u ≠ s.cfg.memdump0) (hm1 : u ≠ s.cfg.memdump1) {k : Nat}
    (hk : firstMagic (p ++ fieldBytes c) = k) :
    rxParse (payloadFrameBytes t u n (headerChecksum t u n) p c) s =
      rxParse ((p ++ fieldBytes c).drop k) { s with
        headerBuf := (frameReceived t u n p c s).headerBuf, payload := (frameReceived t u n p c s).payload
        trace := s.trace ++ [.payCrc (payloadChecksum p) c k] } := by
  obtain ⟨-, hpayload, -⟩ := hinv.1.memory
  obtain ⟨hcap, hcomputed, hreceived⟩ := checksums_frameReceived hinv t u hmax hp c
  have hqueue : (frameReceived t u n p c s).queue = [] := hinv.2
  rw [rxParse_payloadFrameBytes hinv hst hf h0 hmax hp,
    paychk_of_rescan hcap (by rw [hcomputed, hreceived]; exact hc.symm) hm0 hm1,
    payrescan, withPayload_of_le hcap, andThen_next, raiseCondition, replayFrom, hcomputed, hreceived,
    buffered_frameReceived hpayload hp, hk, setQueue_queue, setQueue_setQueue, emit_queue, hqueue, List.append_nil]
  exact congrArg _ (resetParser_frameReceived hinv hst hf t u n p c _)

end

/-- R166: without a magic byte the search runs to the end. -/
theorem firstMagic_eq_length : ∀ {bs : List Byte}, (∀ b ∈ bs, b ≠ magic) → firstMagic bs = bs.length
  | [], _ => rfl
  | b :: bs, h => by
    obtain ⟨hb, hbs⟩ := List.forall_mem_cons.1 h
    rw [firstMagic, if_neg hb, firstMagic_eq_length hbs, List.length_cons]

/-- Settles O44: the memdump frame is dropped, any other one is replayed from where the search stops. -/
theorem damagedPayloadIsNotDispatched : Obligations.DamagedPayloadIsNotDispatched := by
  intro t u n c p s hinv hst hf h0 hmax hp hc
  obtain ⟨hheader, hpayload, -⟩ := hinv.1.memory
  have hlen : (p ++ fieldBytes c).length = n.toNat + 2 := by simp [fieldBytes, hp]
  refine ⟨(frameReceived t u n p c s).headerBuf, (frameReceived t u n p c s).payload,
    read_headerReceived hheader t u n p, read_frameReceived hpayload hp c,
    rxParse_damagedMemdump hinv hst hf h0 hmax hp hc,
    fun hm0 hm1 => ⟨fun k hk hmagic hfirst => ?_, fun hbytes hhi hlo => ?_⟩⟩
  · exact rxParse_damagedPayload hinv hst hf h0 hmax hp hc hm0 hm1
      (firstMagic_eq _ k (hlen ▸ hk.le) hfirst fun _ => hmagic)
  · have hnone : ∀ b ∈ p ++ fieldBytes c, b ≠ magic := by
      simpa [fieldBytes, or_imp, forall_and] using ⟨hbytes, hhi, hlo⟩
    refine (rxParse_damagedPayload hinv hst hf h0 hmax hp hc hm0 hm1
      ((firstMagic_eq_length hnone).trans hlen)).trans ?_
    rw [List.drop_of_length_le hlen.le]
    rfl

end Sys2Proof.Machine
end

section
/-! SUPPORT. The resync engine and the payload rescan (spec/42_resync.md) as statements about their outcomes, the bound
of R168, and the realignment of a frame that arrives behind stray magic bytes (R185). -/

namespace Sys2Proof.Machine

/-! ### The loop bound -/

/-- R35, R168: the bytes held for the current frame attempt. -/
theorem RxInv.held_le {s : State} (h : RxInv s) : held s ≤ 11 + s.cfg.maxPayloadLen := by
  have hfilled := h.inv1
  unfold held
  split
  next => omega
  next => omega
  next hst =>
    obtain ⟨-, -, hmax, hreceived, -⟩ := h.inv5 hst
    omega

/-- Settles O28: the bound is above the measure that each round of the loop decreases, and the queue holds one byte. -/
theorem loopBoundSuffices : Obligations.LoopBoundSuffices := by
  refine ⟨fun b s => drain_ne_loopBound (rank_lt_loopFuel (setQueue [b] s)), fun b s h => ?_⟩
  have hheld : held (setQueue [b] s) ≤ 11 + s.cfg.maxPayloadLen := (h.1.setQueue [b]).held_le
  have hpotential : potential (setQueue [b] s) = 1 + held (setQueue [b] s) := rfl
  exact Nat.pow_le_pow_left (by omega : potential (setQueue [b] s) + 1 ≤ 13 + s.cfg.maxPayloadLen) 2

/-! ### The outcomes of RESYNC -/

/-- R161, R162: the run nearest the end of the window is the one that moves. -/
theorem resync_eq_resyncShift {s : State} {i : Nat} (h4 : 4 ≤ i) (h9 : i ≤ 9) (hrun : MagicRun s i)
    (hlast : ∀ j, i < j → j ≤ 9 → ¬ MagicRun s j) : resync s = resyncShift i s := by
  rw [resync, resyncScan_eq_some h4 h9 hrun hlast]

/-- R164: without a run of four, a magic byte at the end of the window opens the tail. -/
theorem resync_eq_resyncTail {s : State} (hrun : ∀ j, 4 ≤ j → j ≤ 9 → ¬ MagicRun s j) (h9 : hb s 9 = magic) :
    resync s = resyncTail s := by
  rw [resync, resyncScan_eq_none hrun]
  exact if_pos h9

/-- R164: the count starts from magic bytes, goes over magic bytes and, unless its rounds run out, stops at another
byte. -/
theorem read_tailRun (m : Memory) : ∀ {rounds t : Nat}, (∀ k < t, m.read (9 - k) = magic) →
    (∀ k < tailRun m rounds t, m.read (9 - k) = magic) ∧
    (tailRun m rounds t < t + rounds → m.read (9 - tailRun m rounds t) ≠ magic)
  | 0, _, h => ⟨h, fun hlt => absurd hlt (lt_irrefl _)⟩
  | rounds + 1, t, h => by
    unfold tailRun
    split
    next ht =>
      obtain ⟨hmagic, hstop⟩ := read_tailRun m (rounds := rounds) fun k (hk : k < t + 1) =>
        (Nat.lt_succ_iff_lt_or_eq.1 hk).elim (h k) (· ▸ ht)
      exact ⟨hmagic, fun hlt => hstop (by omega)⟩
    next ht => exact ⟨h, fun _ => ht⟩

/-- Settles O35: the scan finds the run, and a move toward lower indices reads each byte before it is overwritten. -/
theorem resyncShiftsLatestRun : Obligations.ResyncShiftsLatestRun := by
  intro s i hw h4 h9 hrun hlast
  refine ⟨s.headerBuf.copyDown (i - 3) 0 (13 - i), Memory.wf_copyDown hw, fun j => ?_,
    congrArg _ (resync_eq_resyncShift h4 h9 hrun hlast)⟩
  rw [Memory.read_copyDown hw (by omega)]
  simp only [Nat.zero_le, true_and, Nat.zero_add, Nat.sub_zero, hb]

/-- Settles O36: the tail count, which without a run of four ends after three bytes at the latest. -/
theorem resyncKeepsTailRun : Obligations.ResyncKeepsTailRun := by
  intro s hrun h9
  have hle := tailRun_le_three (resyncScan_eq_none hrun) h9
  obtain ⟨hge, -⟩ := tailRun_bounds s.headerBuf 9 1
  obtain ⟨hmagic, hstop⟩ := read_tailRun s.headerBuf (rounds := 9) (t := 1) fun k hk => by
    rwa [Nat.lt_one_iff.1 hk]
  exact ⟨tailRun s.headerBuf 9 1, hge, hle, hmagic, hstop (by omega),
    congrArg _ (resync_eq_resyncTail hrun h9)⟩

/-- Settles O37: with no run and no tail the decoder is reset. -/
theorem resyncDropsWindow : Obligations.ResyncDropsWindow := fun s hrun h9 =>
  congrArg _ ((resync_eq_resetParser hrun h9).trans (resetParser_eq_atS0 s))

/-! ### The payload rescan -/

/-- Settles O38: the search stops at `k`, and the bytes of the frame from there on are the replay. -/
theorem payrescanKeepsFromFirstMagic : Obligations.PayrescanKeepsFromFirstMagic := by
  intro c r s k hcap hk hbefore hmagic
  have hlen : (buffered s).length = s.targetLen.toNat + 2 := Memory.length_readBytes ..
  have hread : ∀ j < s.targetLen.toNat + 2, (buffered s).getD j 0 = s.payload.read j := fun j hj => by
    rw [buffered, pl, Memory.getD_readBytes hj, Nat.zero_add]
  have hfirst : firstMagic (buffered s) = k := firstMagic_eq _ k (hlen ▸ hk)
    (fun j hj => hread j (by omega) ▸ hbefore j hj) fun hlt => by
      rw [hlen] at hlt
      exact (hread k hlt).trans (hmagic hlt)
  refine ⟨(buffered s).drop k, by rw [List.length_drop, hlen], fun j hj => ?_, ?_⟩
  · rw [← hread (k + j) (by omega), List.getD_eq_getElem?_getD, List.getElem?_drop, List.getD_eq_getElem?_getD]
  · refine (withPayload_of_le hcap).trans ?_
    rw [hfirst, raiseCondition, replayFrom, hfirst]
    rfl

/-! ### A frame behind stray magic bytes

The decoder takes `k` stray magic bytes and the first `4 - k` of the frame for the magic number, so that the header
window is filled with the frame `k` bytes late. -/

/-- R185: the header window when `k` stray magic bytes stand in front of the header `hdr`. -/
def lateWindow (k : Nat) (hdr : List Byte) : List Byte := (List.replicate k magic ++ hdr).take 10

theorem length_lateWindow (k : Nat) {hdr : List Byte} (hlen : hdr.length = 10) : (lateWindow k hdr).length = 10 := by
  simp [lateWindow, hlen]

/-- R185: behind the stray bytes the window holds the header from its start. -/
theorem getD_lateWindow {k i : Nat} (hdr : List Byte) (hi : k + i < 10) :
    (lateWindow k hdr).getD (k + i) 0 = hdr.getD i 0 := by
  simp [lateWindow, List.getD_eq_getElem?_getD, List.getElem?_append_right, hi]

/-- R132: ten bytes `w` fill the header window, and `HDRCHK` has not run. -/
def windowFilled (w : List Byte) (s : State) : State :=
  { s with state := .collectHeader, headerBuf := s.headerBuf.writeBytes 0 w, headerFilled := 10 }

section

variable {s : State} (hw : s.headerBuf.wf = true) {hdr : List Byte} (hlen : hdr.length = 10)
include hw hlen

theorem hb_windowFilled {i : Nat} (hi : i < 10) : hb (windowFilled hdr s) i = hdr.getD i 0 := by
  have hread := Memory.read_writeBytes (i := 0) (j := i) (bs := hdr) hw
  rwa [if_pos ⟨Nat.zero_le i, by omega⟩] at hread

/-- R133: what `HDRCHK` compares. -/
theorem checksums_windowFilled :
    windowComputed (windowFilled hdr s) =
      headerChecksum (hdr.getD 4 0) (hdr.getD 5 0) (be16 (hdr.getD 6 0) (hdr.getD 7 0)) ∧
    windowReceived (windowFilled hdr s) = be16 (hdr.getD 8 0) (hdr.getD 9 0) := by
  have hbyte : ∀ i < 10, hb (windowFilled hdr s) i = hdr.getD i 0 := fun _ => hb_windowFilled hw hlen
  constructor
  · rw [windowComputed, windowLength, hbyte 4, hbyte 5, hbyte 6, hbyte 7] <;> decide
  · rw [windowReceived, hbyte 8, hbyte 9] <;> decide

/-- R162, R163: the move brings the header to the start of the buffer, and its last `k` bytes complete it. -/
theorem writeBytes_copyDown_lateWindow {k : Nat} (hk : 1 ≤ k) (hk10 : k ≤ 10) :
    (((s.headerBuf.writeBytes 0 (lateWindow k hdr)).copyDown k 0 (10 - k)).writeBytes (10 - k)
      (hdr.drop (10 - k))) = s.headerBuf.writeBytes 0 hdr := by
  have hlate := length_lateWindow k hlen
  have hwindow := Memory.wf_writeBytes (i := 0) (bs := lateWindow k hdr) hw
  refine Memory.ext_read (Memory.wf_writeBytes (Memory.wf_copyDown hwindow)) (Memory.wf_writeBytes hw) fun j => ?_
  rw [Memory.read_writeBytes (Memory.wf_copyDown hwindow), Memory.read_copyDown hwindow hk,
    Memory.read_writeBytes hw, Memory.read_writeBytes hw, Memory.read_writeBytes hw, List.length_drop, hlate, hlen]
  rcases Nat.lt_or_ge j (10 - k) with hj | hj
  · rw [if_neg (by omega), if_pos (by omega), if_pos (by omega), if_pos (by omega)]
    exact getD_lateWindow hdr (by omega)
  rcases Nat.lt_or_ge j 10 with hj' | hj'
  · rw [if_pos (by omega), if_pos (by omega), List.getD_eq_getElem?_getD, List.getElem?_drop,
      List.getD_eq_getElem?_getD]
    congr 2
    omega
  · rw [if_neg (by omega), if_neg (by omega), if_neg (by omega), if_neg (by omega)]

end

/-- R81: a header arrives in two parts: what fills the window behind `k` magic bytes, and its last `k` bytes. -/
theorem headerBytes_eq_append {k : Nat} (hk : 1 ≤ k) (hk3 : k ≤ 3) (t u : Byte) (n h : Half) :
    ∃ (x y : List Byte) (b c : Byte), x.length = 5 ∧ y.length + 1 = k ∧
      headerBytes t u n h = (List.replicate (4 - k) magic ++ (x ++ [b])) ++ (y ++ [c]) ∧
      lateWindow k (headerBytes t u n h) = [magic, magic, magic, magic] ++ (x ++ [b]) ∧
      (headerBytes t u n h).drop (10 - k) = y ++ [c] := by
  obtain rfl | rfl | rfl : k = 1 ∨ k = 2 ∨ k = 3 := by omega
  · exact ⟨[magic, t, u, hi8 n, lo8 n], [], hi8 h, lo8 h, rfl, rfl, rfl, rfl, rfl⟩
  · exact ⟨[magic, magic, t, u, hi8 n], [hi8 h], lo8 n, lo8 h, rfl, rfl, rfl, rfl, rfl⟩
  · exact ⟨[magic, magic, magic, t, u], [lo8 n, hi8 h], hi8 n, lo8 h, rfl, rfl, rfl, rfl, rfl⟩

/-- R132, R185: the window is full behind `k` stray magic bytes and part of a header, and `HDRCHK` has not run. -/
def lateHeader (k : Nat) (t u : Byte) (n h : Half) (s : State) : State :=
  windowFilled (lateWindow k (headerBytes t u n h)) s

/-- R202: the event of the late window. -/
def lateEvent (k : Nat) (t u : Byte) (n h : Half) (s : State) : Event :=
  .hdrCrc (windowComputed (lateHeader k t u n h s)) (windowReceived (lateHeader k t u n h s))

section

variable {s : State} (hw : s.headerBuf.wf = true) {k : Nat} {t u : Byte} {n h : Half}
include hw

/-- R161: behind the stray bytes the window holds the header. -/
theorem hb_lateHeader {i : Nat} (hi : k + i < 10) :
    hb (lateHeader k t u n h s) (k + i) = (headerBytes t u n h).getD i 0 :=
  (hb_windowFilled hw (length_lateWindow k rfl) hi).trans (getD_lateWindow _ hi)

/-- R161: in the late window the magic number of the header is a run of four. -/
theorem magicRun_lateHeader (hk3 : k ≤ 3) : MagicRun (lateHeader k t u n h s) (k + 3) := by
  intro j hj
  rw [Nat.add_sub_assoc (by omega : j ≤ 3), hb_lateHeader hw (i := 3 - j) (by omega)]
  interval_cases j <;> rfl

/-- R161: a later run would hold the type or, after one stray byte, the four bytes behind the type. -/
theorem not_magicRun_lateHeader (hk : 1 ≤ k) (ht : t ≠ magic)
    (hu : ¬ (k = 1 ∧ u = magic ∧ n = be16 magic magic ∧ hi8 h = magic)) {j : Nat} (hj : k + 3 < j) (h9 : j ≤ 9) :
    ¬ MagicRun (lateHeader k t u n h s) j := by
  intro hrun
  have hbyte : ∀ i, k + i ≤ j → j < k + i + 4 → (headerBytes t u n h).getD i 0 = magic := fun i hle hlt => by
    have hmagic := hrun (j - (k + i)) (by omega)
    rwa [Nat.sub_sub_self hle, hb_lateHeader hw (i := i) (by omega)] at hmagic
  rcases Nat.lt_or_ge j (k + 8) with htype | hbehind
  · exact ht (hbyte 4 (by omega) (by omega))
  · have hsub : u = magic := hbyte 5 (by omega) (by omega)
    have hhi : hi8 n = magic := hbyte 6 (by omega) (by omega)
    have hlo : lo8 n = magic := hbyte 7 (by omega) (by omega)
    have hcrc : hi8 h = magic := hbyte 8 (by omega) (by omega)
    exact hu ⟨by omega, hsub, (be16_hi8_lo8 n).symm.trans (congrArg₂ be16 hhi hlo), hcrc⟩

/-- R162, R202: the late window fails its check, and the header in it is moved to the start of the buffer. -/
theorem hdrchk_lateHeader (hk : 1 ≤ k) (hk3 : k ≤ 3) (ht : t ≠ magic)
    (hu : ¬ (k = 1 ∧ u = magic ∧ n = be16 magic magic ∧ hi8 h = magic))
    (hne : windowReceived (lateHeader k t u n h s) ≠ windowComputed (lateHeader k t u n h s)) :
    hdrchk (lateHeader k t u n h s) =
      .next (resyncShift (k + 3) (emit (lateEvent k t u n h s) (lateHeader k t u n h s))) :=
  (hdrchk_of_mismatch hne).trans (congrArg _ (resync_eq_resyncShift (by omega) (by omega)
    (magicRun_lateHeader hw hk3) fun _ => not_magicRun_lateHeader hw hk ht hu))

/-- R132, R162: the last `k` bytes of the header complete the window that was moved, and what is checked then is the
header received by a decoder that was between frames. -/
theorem rxParse_resyncShift_lateHeader (hq : s.queue = []) (hk : 1 ≤ k) (hk3 : k ≤ 3) {y : List Byte} {c : Byte}
    (hy : y.length + 1 = k) (hrest : (headerBytes t u n h).drop (10 - k) = y ++ [c]) (e : Event) :
    rxParse (y ++ [c]) (resyncShift (k + 3) (emit e (lateHeader k t u n h s))) =
      hdrchk (headerReceived t u n h (resetParser (emit e s))) := by
  have hcount : 13 - (k + 3) = 10 - k := Nat.add_sub_add_right 10 3 k
  have hfilled : (u16 (13 - (k + 3))).toNat = 10 - k := by rw [hcount, toNat_u16 (by omega)]
  have hbuf : ((s.headerBuf.writeBytes 0 (lateWindow k (headerBytes t u n h))).copyDown k 0
      (13 - (k + 3))).writeBytes (u16 (13 - (k + 3))).toNat (y ++ [c]) =
        s.headerBuf.writeBytes 0 (headerBytes t u n h) := by
    rw [hfilled, hcount, ← hrest]
    exact writeBytes_copyDown_lateWindow hw rfl hk (by omega)
  refine (rxParse_completeHeader (s := resyncShift (k + 3) (emit e (lateHeader k t u n h s))) rfl hq ?_).trans
    (congrArg hdrchk ?_)
  · show (u16 (13 - (k + 3))).toNat + y.length = 9
    omega
  · exact congrArg (fun m => { headerReceived t u n h (resetParser (emit e s)) with headerBuf := m }) hbuf

/-- R185: behind `k` stray magic bytes a header gives the event of the late window, and is then received as by a decoder
between frames. -/
theorem rxParse_headerBytes_realigned (hst : s.state = .searchFlag) (hq : s.queue = [])
    (hf : s.headerFilled.toNat = k) (hk : 1 ≤ k) (hk3 : k ≤ 3) (ht : t ≠ magic)
    (hu : ¬ (k = 1 ∧ u = magic ∧ n = be16 magic magic ∧ hi8 h = magic))
    (hne : windowReceived (lateHeader k t u n h s) ≠ windowComputed (lateHeader k t u n h s)) :
    rxParse (headerBytes t u n h) s =
      rxParse (headerBytes t u n h) (resetParser (emit (lateEvent k t u n h s) s)) := by
  obtain ⟨x, y, b, c, hx, hy, hsplit, hwindow, hrest⟩ := headerBytes_eq_append hk hk3 t u n h
  calc rxParse (headerBytes t u n h) s
      = andThen (rxParse (List.replicate (4 - k) magic ++ (x ++ [b])) s) (rxParse (y ++ [c])) := by
        rw [← rxParse_append, ← hsplit]
    _ = andThen (hdrchk (lateHeader k t u n h s)) (rxParse (y ++ [c])) := by
        rw [rxParse_header (k := 4 - k) hst hq (by omega) (by omega) hx, lateHeader, hwindow]
        rfl
    _ = rxParse (y ++ [c]) (resyncShift (k + 3) (emit (lateEvent k t u n h s) (lateHeader k t u n h s))) := by
        rw [hdrchk_lateHeader hw hk hk3 ht hu hne, andThen_next]
    _ = hdrchk (headerReceived t u n h (resetParser (emit (lateEvent k t u n h s) s))) :=
        rxParse_resyncShift_lateHeader hw hq hk hk3 hy hrest _
    _ = rxParse (headerBytes t u n h) (resetParser (emit (lateEvent k t u n h s) s)) :=
        (rxParse_headerBytes (s := resetParser (emit (lateEvent k t u n h s) s)) rfl rfl hq t u n h).symm

end

/-- R35, R142: in SearchFlag there is only a count to reset. -/
theorem Inv.resetParser_of_searchFlag {s : State} (hinv : Inv s) (hst : s.state = .searchFlag) :
    resetParser s = { s with headerFilled := 0 } := by
  obtain ⟨-, htarget, hreceived, htype, hsubtype, hlength⟩ := hinv.1.inv3 hst
  simp [resetParser, enter, clearFrame, hst, htarget, hreceived, htype, hsubtype, hlength, u16]

/-- R35, R142: an event and a reset leave a decoder in SearchFlag between frames, with nothing else changed. -/
theorem Inv.resetParser_emit {s : State} (hinv : Inv s) (hst : s.state = .searchFlag) (e : Event) :
    Inv (resetParser (emit e s)) ∧
    resetParser (emit e s) = { s with headerFilled := 0, trace := s.trace ++ [e] } :=
  ⟨⟨(hinv.1.emit e).resetParser, hinv.2⟩,
    congrArg (fun r : State => { r with trace := s.trace ++ [e] }) (hinv.resetParser_of_searchFlag hst)⟩

/-- Settles O46: behind the event of the late window the frame is received as by a decoder between frames. -/
theorem partialRunRealigns : Obligations.PartialRunRealigns := by
  intro t u n p s w hinv hst hk hmax hp ht hu hw hne
  obtain ⟨hheader, -⟩ := hinv.1.memory
  obtain ⟨hk3, -⟩ := hinv.1.inv3 hst
  have hlen : w.length = 10 := hw ▸ length_lateWindow s.headerFilled.toNat (length_headerBytes t u n _)
  obtain ⟨hcomputed, hreceived⟩ := checksums_windowFilled hheader hlen
  have hlate : windowFilled w s = lateHeader s.headerFilled.toNat t u n (headerChecksum t u n) s :=
    congrArg (windowFilled · s) hw
  rw [← hcomputed, ← hreceived, hlate] at hne ⊢
  have hu' : ¬ (s.headerFilled.toNat = 1 ∧ u = magic ∧ n = be16 magic magic ∧
      hi8 (headerChecksum t u n) = magic) := fun h => hu ⟨BitVec.eq_of_toNat_eq h.1, h.2⟩
  have hrealign := rxParse_headerBytes_realigned hheader hst hinv.2 rfl hk hk3 ht hu' hne.symm
  rw [lateEvent] at hrealign
  generalize Event.hdrCrc _ _ = e at hrealign ⊢
  obtain ⟨hinv', hidle⟩ := hinv.resetParser_emit hst e
  by_cases h0 : n = 0
  · subst h0
    obtain rfl : p = [] := List.length_eq_zero_iff.1 hp
    obtain ⟨m, hm, hframe⟩ := headerOnlyFrameDispatches t u _ hinv' rfl rfl
    rw [resetParser_trace, emit_trace, List.append_assoc, hidle] at hframe
    rw [hidle] at hrealign
    exact ⟨m, hm, fun _ => hrealign.trans hframe, fun h => absurd rfl h⟩
  · obtain ⟨m, m', hm, hm', hframe⟩ := payloadFrameDispatches t u n p _ hinv' rfl rfl h0 hmax hp
    have hbytes : rxParse (payloadFrameBytes t u n (headerChecksum t u n) p (payloadChecksum p)) s =
        rxParse (payloadFrameBytes t u n (headerChecksum t u n) p (payloadChecksum p)) (resetParser (emit e s)) := by
      rw [payloadFrameBytes, List.append_assoc, rxParse_append, hrealign, ← rxParse_append]
    rw [resetParser_trace, emit_trace, List.append_assoc, hidle] at hframe
    rw [hidle] at hbytes
    exact ⟨m, hm, fun h => absurd h h0, fun _ => ⟨m', hm', hbytes.trans hframe⟩⟩

end Sys2Proof.Machine
end

section
/-! SUPPORT. The frame encoder (spec/43_encoder.md): the bytes an accepted command writes are those of its frame, in one
run from index 0 of `DEST`, and a decoder between frames gives the command back from them. -/

namespace Sys2Proof.Machine

/-! ### The bytes of a command -/

/-- R81, R83: the wire bytes of a command with its right checksums; without a payload the frame ends behind the
header. -/
def commandBytes (t u : Byte) (n : Half) (p : List Byte) : List Byte :=
  if n = 0 then headerBytes t u n (headerChecksum t u n)
  else payloadFrameBytes t u n (headerChecksum t u n) p (payloadChecksum p)

theorem commandBytes_of_eq_zero {n : Half} (h0 : n = 0) (t u : Byte) (p : List Byte) :
    commandBytes t u n p = headerBytes t u n (headerChecksum t u n) := if_pos h0

theorem commandBytes_of_ne_zero {n : Half} (h0 : n ≠ 0) (t u : Byte) (p : List Byte) :
    commandBytes t u n p = payloadFrameBytes t u n (headerChecksum t u n) p (payloadChecksum p) := if_neg h0

/-- R80: 10 bytes, or 12 and the payload. -/
theorem length_commandBytes {n : Half} {p : List Byte} (hp : p.length = n.toNat) (t u : Byte) :
    (commandBytes t u n p).length = if n = 0 then 10 else 12 + n.toNat := by
  by_cases h0 : n = 0
  · rw [commandBytes_of_eq_zero h0, if_pos h0, length_headerBytes]
  · rw [commandBytes_of_ne_zero h0, if_neg h0, length_payloadFrameBytes, hp]

/-- R183: two runs of bytes, the second behind the first, are one run. -/
theorem Memory.writeBytes_append (m : Memory) (i : Nat) (x y : List Byte) :
    m.writeBytes i (x ++ y) = (m.writeBytes i x).writeBytes (i + x.length) y := by
  induction x generalizing m i with
  | nil => rfl
  | cons b x ih =>
    rw [List.cons_append, Memory.writeBytes, ih, Memory.writeBytes, List.length_cons, Nat.add_comm x.length,
      Nat.add_assoc]

/-- R65, R83: behind its end a frame changes nothing. -/
theorem frameByte_behind {n : Half} {a : Nat} (ha : (if n = 0 then 10 else 12 + n.toNat) ≤ a) (t u : Byte)
    (p : List Byte) (old : Nat → Byte) : frameByte t u n p old a = old a := by
  have h10 : 10 ≤ a := by split at ha <;> omega
  unfold frameByte
  rw [if_neg (by omega), if_neg (by omega), if_neg (by omega), if_neg (by omega), if_neg (by omega),
    if_neg (by omega), if_neg (by omega)]
  by_cases h0 : n = 0
  · rw [if_pos h0]
  · rw [if_neg h0] at ha
    rw [if_neg h0, if_neg (by omega), if_neg (by omega), if_neg (by omega)]

/-- R65, R182: the bytes of a command where they were written, the old contents behind them. -/
theorem read_writeCommand {m : Memory} (hw : m.wf = true) (t u : Byte) {n : Half} {p : List Byte}
    (hp : p.length = n.toNat) (a : Nat) :
    (m.writeBytes 0 (commandBytes t u n p)).read a = frameByte t u n p m.read a := by
  have hheader := read_writeHeader t u n p hw a
  by_cases h0 : n = 0
  · rw [commandBytes_of_eq_zero h0, hheader]
    split
    next => rfl
    next ha => exact (frameByte_behind (by rw [if_pos h0]; omega) t u p m.read).symm
  · have hlen : (p ++ fieldBytes (payloadChecksum p)).length = n.toNat + 2 := by simp [fieldBytes, hp]
    rw [commandBytes_of_ne_zero h0, payloadFrameBytes, List.append_assoc, Memory.writeBytes_append,
      Memory.read_writeBytes (Memory.wf_writeBytes hw), hheader, length_headerBytes, hlen, Nat.zero_add]
    rcases Nat.lt_or_ge a 10 with ha | ha
    · rw [if_neg (by omega), if_pos ha]
    rcases Nat.lt_or_ge a (10 + (n.toNat + 2)) with hend | hend
    · rw [if_pos ⟨ha, hend⟩, getD_payload_eq_frameByte hp h0 (by omega) t u m.read, Nat.add_sub_cancel' ha]
    · rw [if_neg (by omega), if_neg (by omega), frameByte_behind (by rw [if_neg h0]; omega)]

/-! ### TX.ENCODE -/

/-- R182: what an accepted command leaves in `DEST` and answers. -/
theorem execTxEncode_of_accepted {v : Bool} {n : Half} {cap : Nat} {s : State} {p : List Byte}
    (h : encodeAccepted s.cfg v n cap = true) (hp : n.toNat ≤ p.length) (t u : Byte) :
    execTxEncode v t u n p cap s = .next { s with
      dest := s.dest.writeBytes 0 (commandBytes t u n (p.take n.toNat))
      txo := s.txo ++ [.ok (if n = 0 then 10 else 12 + n.toNat)] } := by
  rw [execTxEncode, if_pos h]
  by_cases h0 : n = 0
  · rw [if_pos h0, if_pos h0, commandBytes_of_eq_zero h0]
    rfl
  · rw [if_neg h0, if_neg h0, commandBytes_of_ne_zero h0, payloadFrameBytes, List.append_assoc,
      Memory.writeBytes_append, fillPayload, operandBytes_eq_take hp]
    rfl

/-- R183, R206: what a refused command answers. -/
theorem execTxEncode_of_refused {v : Bool} {n : Half} {cap : Nat} {s : State}
    (h : encodeAccepted s.cfg v n cap ≠ true) (t u : Byte) (p : List Byte) :
    execTxEncode v t u n p cap s = .next { s with txo := s.txo ++ [.invalidArgument] } := by
  rw [execTxEncode, if_neg h]
  rfl

/-- Settles O47: the frame is one run of bytes from index 0, and each failed test contradicts acceptance. -/
theorem txEncodeWritesFrameOrRefuses : Obligations.TxEncodeWritesFrameOrRefuses := by
  intro v t u n p cap s
  constructor
  · intro hv hcap hmax hfits hp hw
    exact ⟨_, Memory.wf_writeBytes hw, read_writeCommand hw t u (List.length_take_of_le hp),
      execTxEncode_of_accepted (encodeAccepted_iff.2 ⟨hv, hcap, hmax, hfits⟩) hp t u⟩
  · intro hfail
    refine execTxEncode_of_refused (fun ha => ?_) t u p
    obtain ⟨hv, hcap, hmax, hfits⟩ := encodeAccepted_iff.1 ha
    rcases hfail with hv' | hcap' | hmax' | ⟨h0, hsmall⟩
    · exact absurd (hv.symm.trans hv') (by decide)
    · exact absurd hcap' (Nat.not_le.2 hcap)
    · exact absurd hmax (Nat.not_le.2 hmax')
    · exact absurd (hfits h0) (Nat.not_le.2 hsmall)

/-- Settles O48: the header is written in one run from index 0. -/
theorem txFillhdrWritesHeader : Obligations.TxFillhdrWritesHeader := fun t u n _ hw =>
  ⟨_, Memory.wf_writeBytes hw, read_writeHeader t u n [] hw, rfl⟩

/-- Settles O50: the parameters and the destination decide what is written and answered. -/
theorem encoderIsStateless : Obligations.EncoderIsStateless := by
  intro v t u n p cap s s' hcfg hdest
  obtain ⟨m, r, -, hnext⟩ := execTxEncode_spec v t u n p cap s.cfg s.dest
  exact ⟨m, r, hnext s rfl rfl, hnext s' hcfg.symm hdest.symm⟩

/-! ### Encode, then parse -/

/-- R84, R141: the bytes of a command that a decoder between frames accepts are dispatched as that command. -/
theorem rxParse_commandBytes {s : State} (hinv : Inv s) (hst : s.state = .searchFlag) (hf : s.headerFilled = 0)
    {n : Half} {p : List Byte} (hmax : n.toNat ≤ s.cfg.maxPayloadLen) (hp : p.length = n.toNat) (t u : Byte) :
    ∃ m m' : Memory, rxParse (commandBytes t u n p) s = .next { s with
      headerBuf := m, payload := m', trace := s.trace ++ [.dispatch t u n p] } := by
  by_cases h0 : n = 0
  · subst h0
    obtain rfl : p = [] := List.length_eq_zero_iff.1 hp
    obtain ⟨m, -, hframe⟩ := headerOnlyFrameDispatches t u s hinv hst hf
    exact ⟨m, s.payload, (congrArg (rxParse · s) (commandBytes_of_eq_zero rfl t u [])).trans hframe⟩
  · obtain ⟨m, m', -, -, hframe⟩ := payloadFrameDispatches t u n p s hinv hst hf h0 hmax hp
    exact ⟨m, m', (congrArg (rxParse · s) (commandBytes_of_ne_zero h0 t u p)).trans hframe⟩

/-- R35, R38: between frames the decoder fields are those of `S0`, whatever the buffers and the trace hold. -/
theorem Inv.atS0_eq_self {s : State} (hinv : Inv s) (hst : s.state = .searchFlag) (hf : s.headerFilled = 0)
    (m m' : Memory) (es : List Event) :
    atS0 { s with headerBuf := m, payload := m', trace := es } =
      { s with headerBuf := m, payload := m', trace := es } :=
  congrArg (fun r : State => { r with headerBuf := m, payload := m', trace := es }) (hinv.resetParser_eq_self hst hf)

/-- Settles O45: what is read back from `DEST` is the frame, and its reception dispatches the command. -/
theorem encodeThenParseRoundTrips : Obligations.EncodeThenParseRoundTrips := by
  intro t u n p cap s r hinv hst hf hcfg hw hmax hp hcap hfits
  have htake : (p.take n.toNat).length = n.toNat := List.length_take_of_le hp
  have hencode := execTxEncode_of_accepted (encodeAccepted_iff.2 ⟨rfl, hcap, hmax, hfits⟩) hp t u
  have hread := Memory.readBytes_writeBytes (i := 0) (bs := commandBytes t u n (p.take n.toNat)) hw
  rw [length_commandBytes htake] at hread
  obtain ⟨m, m', hparse⟩ := rxParse_commandBytes hinv hst hf (hcfg ▸ hmax) htake t u
  exact ⟨_, _, _, hencode, rfl, (congrArg (rxParse · r) hread).trans hparse, rfl,
    hinv.atS0_eq_self hst hf m m' _, hinv.2⟩

end Sys2Proof.Machine
end

section
/-! SUPPORT. The model's record of the outputs only grows (R207, of the events): the decoder appends to the trace and
leaves the answers of the other two units alone, and each of those appends its one answer. -/

namespace Sys2Proof.Machine

/-! ### The event trace -/

/-- R135: `PAYCHK` appends at most one event. -/
theorem trace_prefix_of_paychk {s t : State} (h : paychk s = .next t) : s.trace <+: t.trace := by
  obtain ⟨-, ⟨-, -, rfl⟩ | ⟨-, -, rfl⟩ | ⟨-, -, rfl⟩⟩ := paychk_cases h
  · exact List.prefix_append _ _
  · exact List.prefix_rfl
  · exact List.prefix_append _ _

/-- R133: `HDRCHK` appends, by what `emitsFitting_hdrchk` says of its events. -/
theorem trace_prefix_of_hdrchk {s t : State} (h : hdrchk s = .next t) : s.trace <+: t.trace := by
  obtain ⟨-, es, htrace, -⟩ := emitsFitting_hdrchk h
  exact htrace ▸ List.prefix_append _ _

/-- R130: only the byte that completes a header or a frame appends. -/
theorem trace_prefix_of_consume {c : Byte} {s t : State} (h : consume c s = .next t) : s.trace <+: t.trace := by
  unfold consume at h
  cases hst : s.state with
  | searchFlag =>
    rw [hst] at h
    cases h
    exact (searchArm_trace c s).symm ▸ List.prefix_rfl
  | collectHeader =>
    rw [hst] at h
    obtain ⟨-, ⟨-, rfl⟩ | ⟨-, hchk⟩⟩ := headerArm_cases h
    · exact List.prefix_rfl
    · exact trace_prefix_of_hdrchk (s := storeHeader c s) hchk
  | collectData =>
    rw [hst] at h
    obtain ⟨-, ⟨-, rfl⟩ | ⟨-, hchk⟩⟩ := dataArm_cases h
    · exact List.prefix_rfl
    · exact trace_prefix_of_paychk (s := storePayload c s) hchk

/-- Whatever the ports ask for, the events emitted up to `s` stay in front. -/
theorem keptByPorts_traceGrows (s : State) : KeptByPorts fun t => s.trace <+: t.trace where
  receive {b} t _ ht hr :=
    (drain_induct (P := fun u => s.trace <+: u.trace) (fun _ _ _ hu hc => hu.trans (trace_prefix_of_consume hc))
      (fun _ _ hu => hu) (s := setQueue [b] t) ht hr).1
  reset h := h
  answer _ _ _ h _ := h
  take _ h := h

/-! ### The answers of the encoder and of the checksum unit -/

/-- Between `s` and `t` the encoder's results and the checksum answers only grow. -/
def AnswersGrow (s t : State) : Prop := s.txo <+: t.txo ∧ s.csum <+: t.csum

theorem AnswersGrow.refl (s : State) : AnswersGrow s s := ⟨List.prefix_rfl, List.prefix_rfl⟩

theorem AnswersGrow.trans {s t u : State} (h : AnswersGrow s t) (h' : AnswersGrow t u) : AnswersGrow s u :=
  ⟨h.1.trans h'.1, h.2.trans h'.2⟩

theorem SameOuter.answersGrow {s t : State} (h : SameOuter s t) : AnswersGrow s t := by
  obtain ⟨-, -, htxo, hcsum, -⟩ := h
  exact ⟨htxo ▸ List.prefix_rfl, hcsum ▸ List.prefix_rfl⟩

theorem answersGrow_answerCs (v : Half) (s : State) : AnswersGrow s (answerCs v s) :=
  ⟨List.prefix_rfl, List.prefix_append _ _⟩

/-- R68: every operation, the internal ones included. -/
theorem answersGrow_exec {i : Instr} {s t : State} (h : exec i s = .next t) : AnswersGrow s t := by
  cases i with
  | txEncode v ty su n p cap =>
    obtain ⟨m, r, -, hnext⟩ := execTxEncode_spec v ty su n p cap s.cfg s.dest
    cases (hnext s rfl rfl).symm.trans h
    exact ⟨List.prefix_append _ _, List.prefix_rfl⟩
  | txFillhdr ty su n =>
    cases h
    exact .refl s
  | csumHdr ty su n =>
    cases h
    exact answersGrow_answerCs _ s
  | csumPay p =>
    by_cases hp : p.length ≤ 65535
    · cases (exec_csumPay_of_le hp s).symm.trans h
      exact answersGrow_answerCs _ s
    · cases (exec_csumPay_of_lt (Nat.not_le.1 hp) s).symm.trans h
  | rxReset | rxByte | frameH | frameHP | rxParse | hdrchk | paychk | dispatch | resetInt | resync
  | payrescan => exact (exec_outer rfl h).answersGrow

theorem answersGrow_execAll : ∀ {is : List Instr} {s t : State}, execAll is s = .next t → AnswersGrow s t
  | [], s, _, h => by
    cases h
    exact .refl s
  | _ :: _, _, _, h => by
    obtain ⟨u, hu, ht⟩ := andThen_eq_next.1 h
    exact (answersGrow_exec hu).trans (answersGrow_execAll ht)

/-- R11: taking the stimulus changes no answer. -/
theorem answersGrow_step {s t : State} (h : step s = .next t) : AnswersGrow s t := by
  cases hin : s.inputs with
  | nil =>
    rw [step_of_inputs_nil hin] at h
    cases h
    exact .refl s
  | cons x rest =>
    rw [step_of_inputs_cons hin] at h
    exact answersGrow_execAll (s := { s with inputs := rest }) h

/-- Settles O54: the trace by what the ports keep, the answers operation by operation. -/
theorem outputsOnlyGrow : Obligations.OutputsOnlyGrow := fun s _ h =>
  ⟨(keptByPorts_traceGrows s).step List.prefix_rfl h, answersGrow_step h⟩

end Sys2Proof.Machine
end

section
/-! SUPPORT. No operation writes the parameters or the list of inputs (R236): the decoder by `SameOuter`, the other two
units because all they write is their outputs. So only the taking of a stimulus changes the list. -/

namespace Sys2Proof.Machine

/-- R88: an operation that is not the decoder's is the encoder's or the checksum unit's. -/
theorem answersOnly_of_not_runsDecoder {i : Instr} (hi : runsDecoder i = false) :
    (∃ v a b n p c, i = .txEncode v a b n p c) ∨ (∃ a b n, i = .csumHdr a b n) ∨ (∃ p, i = .csumPay p) ∨
      ∃ a b n, i = .txFillhdr a b n := by
  cases i with
  | txEncode v a b n p c => exact .inl ⟨v, a, b, n, p, c, rfl⟩
  | csumHdr a b n => exact .inr (.inl ⟨a, b, n, rfl⟩)
  | csumPay p => exact .inr (.inr (.inl ⟨p, rfl⟩))
  | txFillhdr a b n => exact .inr (.inr (.inr ⟨a, b, n, rfl⟩))
  | rxReset | rxByte | frameH | frameHP | rxParse | hdrchk | paychk | dispatch | resetInt | resync
  | payrescan => cases hi

/-- R236: every operation, the internal ones included. -/
theorem cfg_inputs_of_exec {i : Instr} {s t : State} (h : exec i s = .next t) :
    t.cfg = s.cfg ∧ t.inputs = s.inputs := by
  cases hi : runsDecoder i with
  | true =>
    obtain ⟨hcfg, -, -, -, hinputs⟩ := exec_outer hi h
    exact ⟨hcfg, hinputs⟩
  | false =>
    obtain ⟨-, -, hkept⟩ := unitsKeepApart i s t h
    have heq : { t with dest := s.dest, txo := s.txo, csum := s.csum } = s :=
      hkept (answersOnly_of_not_runsDecoder hi)
    exact ⟨(congrArg State.cfg heq :), (congrArg State.inputs heq :)⟩

/-- R236: operations run one after the other. -/
theorem cfg_inputs_of_execAll : ∀ {is : List Instr} {s t : State}, execAll is s = .next t →
    t.cfg = s.cfg ∧ t.inputs = s.inputs
  | [], _, _, h => by
    cases h
    exact ⟨rfl, rfl⟩
  | _ :: _, _, _, h => by
    obtain ⟨u, hu, ht⟩ := andThen_eq_next.1 h
    obtain ⟨hcfg, hinputs⟩ := cfg_inputs_of_exec hu
    obtain ⟨hcfg', hinputs'⟩ := cfg_inputs_of_execAll ht
    exact ⟨hcfg'.trans hcfg, hinputs'.trans hinputs⟩

/-- Settles O53: a step takes the head of the inputs, and what it then runs keeps the parameters and the rest. -/
theorem parametersNeverChange : Obligations.ParametersNeverChange := by
  intro s t h
  cases hin : s.inputs with
  | nil =>
    rw [step_of_inputs_nil hin] at h
    cases h
    exact ⟨rfl, hin⟩
  | cons x rest =>
    rw [step_of_inputs_cons hin] at h
    exact cfg_inputs_of_execAll (s := { s with inputs := rest }) h

end Sys2Proof.Machine
end

section
/-! SUPPORT. When the second fold of a checksum is needed (R120), a stimulus offered to the machine, and the statements
of U11, the pseudocode of R112 and the words of spec/opcode_table.json settled from that. -/

namespace Sys2Proof.Machine

/-! ### The checksum unit -/

/-- Settles O3: the arm of a sequence that does not fit. -/
theorem csumPayRefusesLongSequence : Obligations.CsumPayRefusesLongSequence := fun _ s hp =>
  exec_csumPay_of_lt hp s

/-- R120: where one fold leaves a carry, the complement of 16 bits drops it and the second fold adds it. -/
theorem finishSum_ne_not16_fold16 {x : Nat} (h : x < 2 ^ 32) (hcarry : 0xFFFF < fold16 x) :
    finishSum x ≠ not16 (fold16 x) := by
  have hle := fold16_le_of_lt h
  have hsecond := fold16_eq (fold16 x)
  intro heq
  have hlow : fold16 (fold16 x) % 2 ^ 16 = fold16 x % 2 ^ 16 :=
    congrArg BitVec.toNat (BitVec.not_inj.1 heq)
  omega

/-- Settles O6: type 0xFF, subtype 0xFF, length 0x0304 has the sum 0x1FFFF, which one fold takes to 0x10000. -/
theorem someHeaderNeedsSecondFold : Obligations.SomeHeaderNeedsSecondFold := by
  have hcarry : 0xFFFF < fold16 (headerSum 0xFF 0xFF 0x0304) := by decide
  have hlt := headerSum_lt 0xFF 0xFF 0x0304
  exact ⟨0xFF, 0xFF, 0x0304, hcarry, finishSum_ne_not16_fold16 (by omega) hcarry⟩

/-! ### A stimulus offered -/

/-- R11: a step runs what it is offered, in the state as it was before the offer. -/
theorem step_offerInput (x : Stimulus) (s : State) : step (offerInput x s) = execAll (decode x) s :=
  step_of_inputs_cons rfl

/-- A word that a stimulus carries is offered as that stimulus. -/
theorem withFetchWord_of_tableStimulus {nbits w : Nat} {x : Stimulus} (hx : tableStimulus nbits w = some x)
    (s : State) : s.withFetchWord nbits w = offerInput x s := by
  rw [State.withFetchWord, offerTableWord, hx]

/-- Settles O19: the offered stimulus is taken, and it decodes to one operation. -/
theorem offeredWordRunsNext : Obligations.OfferedWordRunsNext := by
  intro s nbits w x i hx hi
  rw [withFetchWord_of_tableStimulus hx, step_offerInput, hi, execAll_singleton]

end Sys2Proof.Machine
end
